-- ==== Sys2Proof/Word.lean ====
section
/-! DEFINITION. The widths of the block's ports (10_state.md R16, R17; 92_eei_decisions.md D3). -/

namespace Sys2Proof

/-- A byte port or a cell of a byte buffer: unsigned, 8 bits (R16). -/
abbrev Byte := BitVec 8

/-- An "int" port: signed two's complement of `W` = 32 bits (R9, R16). Its value is `toInt`. -/
abbrev IntPort := BitVec 32

/-- A nibble: "a 4-bit value, half a byte" (R12); the value of one Game Genie letter. -/
abbrev Nibble := BitVec 4

/-- A pixel: a 2-bit value 0 to 3 (R96). -/
abbrev Pixel := BitVec 2

end Sys2Proof
end

