-- ==== Sys2Proof/Config.lean ====
section
/-! DEFINITION. What the spec leaves to the implementation: the one parameter `MAPPER_TABLE` (00_scope.md R9,
10_state.md R20; log 1). -/

namespace Sys2Proof

/-- The value set `BANK_SIZES` of R8: 8192, 16384 and 32768 bytes. -/
inductive BankSize where
  /-- 8192 bytes -/
  | kib8
  /-- 16384 bytes -/
  | kib16
  /-- 32768 bytes -/
  | kib32
deriving DecidableEq, Repr

/-- A mapper table as plain data: (mapper number, bank size) pairs. R20: the values are in `BANK_SIZES` and the keys in
0 to 255, both by type; `MapperTable.wf` (Machine/Ops.lean) is its canonical form. -/
abbrev MapperTable := List (Fin 256 × BankSize)

/-- The implementation's `MAPPER_TABLE`, a finite partial map of which the spec prints no row (R20, D11: OPEN). It has no
body, so that nothing about a particular mapper can be proved (log 1). -/
opaque Config.mapperTable : Fin 256 → Option BankSize

end Sys2Proof
end

