-- ==== Sys2Proof/Syntax.lean ====
section
/-! DEFINITION. The twelve operations (00_scope.md R7). An operation's code carries no operand: "There are no immediates, no register
specifiers and no modes inside the code" (30_encoding.md R58); operands stand on the ports of State. -/

namespace Sys2Proof

/-- One constructor per row of spec/opcode_table.json. -/
inductive Instr where
  /-- HDR.DEC, decode an iNES header (R64) -/
  | hdrDec
  /-- HDR.ENC, encode an iNES header (R68) -/
  | hdrEnc
  /-- BANK.MIN, minimum PRG bank size of a mapper (R73) -/
  | bankMin
  /-- BANK.MINC, minimum PRG bank size clamped to the ROM (R75) -/
  | bankMinc
  /-- BANK.ISSW, is the ROM bank-switched (R76) -/
  | bankIssw
  /-- BANK.P2C, PRG offset to CPU addresses (R78) -/
  | bankP2c
  /-- BANK.C2P, CPU address to PRG offsets (R81) -/
  | bankC2p
  /-- BANK.C2PF, CPU address to PRG offsets, filtered by the byte found there (R84) -/
  | bankC2pf
  /-- GG.DEC, decode a Game Genie code (R87) -/
  | ggDec
  /-- GG.ENC, encode a Game Genie triple (R91) -/
  | ggEnc
  /-- TILE.DEC, decode a tile slice (R97) -/
  | tileDec
  /-- TILE.ENC, encode a tile slice (R99) -/
  | tileEnc
deriving DecidableEq, Repr

/-- All operations, in the order of R58's table. -/
def Instr.all : List Instr :=
  [.hdrDec, .hdrEnc, .bankMin, .bankMinc, .bankIssw, .bankP2c, .bankC2p, .bankC2pf, .ggDec, .ggEnc, .tileDec, .tileEnc]

end Sys2Proof
end

