-- ==== Sys2Proof/WellFormed.lean ====
section
/-! DEFINITION. What is a well-formed operation select. An `Instr` has no operand, so every term of it is well formed; what can be
ill formed is the code the host presents (30_encoding.md R58, R59). -/

namespace Sys2Proof

/-- A byte that carries an operation code has nothing outside `OP[3:0]` (R58: the code has 4 bits; log 9). -/
def byteCarriesOp (b : Byte) : Bool := b.toNat < 16

/-- `OP` codes 0 to 11 select an operation, 12 to 15 none (R59). -/
def opSelectsOperation (op : BitVec 4) : Bool := op.toNat < 12

/-- Every operation is well formed: it has no operand that could be out of range (R58). -/
def Instr.wellFormed (i : Instr) : Bool := i ∈ Instr.all

end Sys2Proof
end

