-- ==== Sys2Proof/Decode.lean ====
section
/-! DEFINITION. The decoder and the encoder of the operation-select code, format `OP4` (30_encoding.md R58, R59). -/

namespace Sys2Proof

/-- Why the decoder reads no operation. -/
inductive DecodeReject where
  /-- there is no byte to read -/
  | noByte
  /-- a bit outside `OP[3:0]` is set, so the byte is no 4-bit code (R58; log 9) -/
  | notFourBits (b : Byte)
  /-- `OP` codes 12 to 15 "select no operation" (R59) -/
  | reservedOp (op : BitVec 4)
deriving DecidableEq, Repr

/-- The column `OP` of R58's table. -/
def opCode : Instr → BitVec 4
  | .hdrDec   => 0b0000
  | .hdrEnc   => 0b0001
  | .bankMin  => 0b0010
  | .bankMinc => 0b0011
  | .bankIssw => 0b0100
  | .bankP2c  => 0b0101
  | .bankC2p  => 0b0110
  | .bankC2pf => 0b0111
  | .ggDec    => 0b1000
  | .ggEnc    => 0b1001
  | .tileDec  => 0b1010
  | .tileEnc  => 0b1011

/-- R58's table read from the code; codes 12 to 15 are refused and are no alias of a defined operation (R59). -/
def decodeOp (op : BitVec 4) : Except DecodeReject Instr :=
  match op.toNat with
  | 0  => .ok .hdrDec
  | 1  => .ok .hdrEnc
  | 2  => .ok .bankMin
  | 3  => .ok .bankMinc
  | 4  => .ok .bankIssw
  | 5  => .ok .bankP2c
  | 6  => .ok .bankC2p
  | 7  => .ok .bankC2pf
  | 8  => .ok .ggDec
  | 9  => .ok .ggEnc
  | 10 => .ok .tileDec
  | 11 => .ok .tileEnc
  | _  => .error (.reservedOp op)

/-- The operation the first byte selects, and the bytes after it. -/
def decode : List Byte → Except DecodeReject (Instr × List Byte)
  | [] => .error .noByte
  | b :: rest =>
    if byteCarriesOp b then
      match decodeOp (b.setWidth 4) with
      | .ok i    => .ok (i, rest)
      | .error r => .error r
    else .error (.notFourBits b)

/-- The bytes of an operation: one byte whose bits 3:0 are its code and whose other bits are 0. -/
def encode (i : Instr) : List Byte := [(opCode i).setWidth 8]

/-- The bytes of a word of `nbits` bits, bit 0 the least significant bit of the first byte; at least one byte. -/
def wordBytes (nbits w : Nat) : List Byte :=
  (List.range (max 1 ((nbits + 7) / 8))).map fun k => BitVec.ofNat 8 (w / 256 ^ k)

/-- The operation the decoder reads from a row's word, numbered as spec/opcode_table.json numbers its bits. -/
def decodeTableWord (nbits w : Nat) : Option Instr :=
  match decode (wordBytes nbits w) with
  | .ok (i, _) => some i
  | .error _   => none

end Sys2Proof
end

