-- ==== Sys2Proof/Machine/State.lean ====
section
/-! DEFINITION. The state of the machine as plain data: the request of the current operation (10_state.md R16), the two buffers the
host binds (20_memory.md R28, R31), the parameter table (R20), and the answer of the last operation (R17, R18, R25). The block
has no register, no program counter and no hidden state (R13, R14, R19, R21). -/

namespace Sys2Proof.Machine

open Sys2Proof

/-- A byte buffer: `size` bytes at addresses 0 to `size − 1`. `cells` lists the bytes that are not 0x00 in rising order of address
(`Memory.wf`); an unlisted address below `size` holds 0x00, an address from `size` on does not exist (log 6). -/
structure Memory where
  size  : Nat
  cells : List Host.Cell
deriving DecidableEq, Repr

/-- The nine error kinds (60_exceptions.md R101). -/
inductive ErrorKind where
  | badMagic
  | tooShort
  | truncated
  | invalidPrgSize
  | invalidChrSize
  | invalidMapper
  | invalidCode
  | invalidArgument
  | addressOutOfRange
deriving DecidableEq, Repr

/-- The nine result ports of HDR.DEC (R17), a decoded header (R22). -/
structure Header where
  trainerStart : IntPort
  trainerSize  : IntPort
  prgStart     : IntPort
  prgSize      : IntPort
  chrStart     : IntPort
  chrSize      : IntPort
  mapper       : IntPort
  mirr         : BitVec 2
  xram         : Bool
deriving DecidableEq, Repr

/-- A decoded Game Genie code, the tagged variant of R27; the tag is what the ports `LEN` and `HASCMP` carry. -/
inductive Triple where
  /-- `LEN` = 6, `HASCMP` = 0 -/
  | sixLetter (address replacement : IntPort)
  /-- `LEN` = 8, `HASCMP` = 1 -/
  | eightLetter (address replacement compare : IntPort)
deriving DecidableEq, Repr

/-- The result ports of each operation (R17). A sequence result is its list of `ADDR` ports, `COUNT` is the list's length (R26). -/
inductive Result where
  | hdrDec   (h : Header)
  | hdrEnc   (hdr : Vector Byte 16)
  | bankMin  (bankSize : IntPort) (unknown : Bool)
  | bankMinc (bankSize : IntPort) (unknown : Bool)
  | bankIssw (switched unknown : Bool)
  | bankP2c  (addr : List IntPort)
  | bankC2p  (addr : List IntPort)
  | bankC2pf (addr : List IntPort)
  | ggDec    (triple : Triple)
  | ggEnc    (code : List Byte)
  | tileDec  (px : Vector Pixel 8)
  | tileEnc  (lo hi : Byte)
deriving DecidableEq, Repr

/-- What an operation answers: an error kind and nothing else, or its results (R25: "a sum type (an error kind, or the results)"). -/
inductive Answer where
  | error (e : ErrorKind)
  | ok (r : Result)
deriving DecidableEq, Repr

/-- The state. The operand ports are named as R16 names them; `COMPARE` is a byte for BANK.C2PF and an int for GG.ENC (log 4). -/
structure State where
  /-- the operation-select code `OP[3:0]` (R58) -/
  op          : BitVec 4
  avail       : IntPort
  fileLen     : IntPort
  prgSize     : IntPort
  chrSize     : IntPort
  mapper      : IntPort
  mirr        : BitVec 2
  xram        : Bool
  prgAddr     : IntPort
  bankSize    : IntPort
  cpuAddr     : IntPort
  /-- `COMPARE` of BANK.C2PF -/
  compareByte : Byte
  len         : IntPort
  code        : Vector Byte 8
  address     : IntPort
  replacement : IntPort
  hasCmp      : Bool
  /-- `COMPARE` of GG.ENC -/
  compareInt  : IntPort
  lo          : Byte
  hi          : Byte
  px          : Vector Pixel 8
  /-- `HDRBUF`, the 16 bytes HDR.DEC can read (R16, R28; log 5) -/
  hdrBuf      : Vector Byte 16
  /-- `PRG`, the buffer BANK.C2PF reads (R31; log 6) -/
  prg         : Memory
  /-- `MAPPER_TABLE` (R20; log 1) -/
  mapperTable : MapperTable
  /-- `STATUS`, `UNKNOWN` and the result ports; `none` before the first operation completes (R24; log 3) -/
  answer      : Option Answer
deriving DecidableEq, Repr

/-- The block has no fault: "there is no bus error, page fault or alignment fault" (R102), and an error of an operation is an answer
(R110; log 11). So this type has no constructor and no step ends in a fault (log 17). -/
inductive Fault where
deriving DecidableEq, Repr

/-- Where the spec gives an operation no meaning. Each is safe: no claim about the answer can be proved there. -/
inductive Refusal where
  /-- raised by `exec` for an operation the model gives no meaning; safe; raised by none now -/
  | notModelled (mnemonic : String)
  /-- raised by `step` for `OP` codes 12 to 15, which "select no operation" (R59); safe -/
  | reservedOp (op : BitVec 4)
  /-- raised by HDR.ENC with `MIRR` = 3, which "names no mirroring kind" (R71); safe -/
  | mirrCodeReserved
  /-- raised by BANK.C2PF on its domain with a `PRG` buffer shorter than `PRGSIZE` (R84; U11: "refuse"; log 7); safe -/
  | prgBufferShort
deriving DecidableEq, Repr

/-- After reset (R24): `MAPPER_TABLE` is the parameter's value (log 1), no answer exists yet (log 3), and the operand ports and buffers,
which are "unspecified until the host writes them", are zero and unbound (logs 2, 6). -/
def State.reset : State where
  op          := 0
  avail       := 0
  fileLen     := 0
  prgSize     := 0
  chrSize     := 0
  mapper      := 0
  mirr        := 0
  xram        := false
  prgAddr     := 0
  bankSize    := 0
  cpuAddr     := 0
  compareByte := 0
  len         := 0
  code        := #v[0, 0, 0, 0, 0, 0, 0, 0]
  address     := 0
  replacement := 0
  hasCmp      := false
  compareInt  := 0
  lo          := 0
  hi          := 0
  px          := #v[0, 0, 0, 0, 0, 0, 0, 0]
  hdrBuf      := #v[0, 0, 0, 0, 0, 0, 0, 0, 0, 0, 0, 0, 0, 0, 0, 0]
  prg         := ⟨0, []⟩
  mapperTable := (List.finRange 256).filterMap fun k => (Config.mapperTable k).map fun b => (k, b)
  answer      := none

end Sys2Proof.Machine
end

