-- ==== Sys2Proof/Machine/Constants.lean ====
section
/-! DEFINITION. The constants "a model hard-codes" (00_scope.md R8, R19; 42_game_genie.md R86; ASCII codes: 30_encoding.md R53, log 15). -/

namespace Sys2Proof.Machine

open Sys2Proof

/-- `MAGIC`: "NES" followed by byte 0x1A. -/
def magic : List Byte := [0x4E, 0x45, 0x53, 0x1A]
/-- `HDR_LEN`, in bytes. -/
abbrev hdrLen : Nat := 16
/-- `PRG_UNIT`, in bytes. -/
abbrev prgUnit : Nat := 16384
/-- `CHR_UNIT`, in bytes. -/
abbrev chrUnit : Nat := 8192
/-- `TRAINER_LEN`, in bytes. -/
abbrev trainerLen : Nat := 512
/-- `PRG_UNITS_MAX`, written as byte value 0. -/
abbrev prgUnitsMax : Nat := 256
/-- `CHR_UNITS_MAX`. -/
abbrev chrUnitsMax : Nat := 255
/-- `BANK_SIZES`. -/
def bankSizes : List Int := [8192, 16384, 32768]
/-- `UNKNOWN_BANK`, the fallback for a mapper absent from the table. -/
abbrev unknownBank : Int := 8192
/-- `CPU_WIN_LO`, the first CPU address of PRG ROM. -/
abbrev cpuWinLo : Int := 0x8000
/-- `CPU_WIN_HI`, the last CPU address of PRG ROM. -/
abbrev cpuWinHi : Int := 0xFFFF
/-- `CPU_TOP`, the exclusive upper bound of a CPU address. -/
abbrev cpuTop : Int := 0x10000

/-- `ALPHABET`: `A P Z L G I T Y E O X U K S V N` in ASCII, position = value. -/
def alphabet : Vector Byte 16 :=
  #v[0x41, 0x50, 0x5A, 0x4C, 0x47, 0x49, 0x54, 0x59, 0x45, 0x4F, 0x58, 0x55, 0x4B, 0x53, 0x56, 0x4E]

/-- `KEY`, the permutation of the letter positions. -/
def key : List Nat := [3, 5, 2, 4, 1, 0, 7, 6]

/-- The bytes of a bank size (R8). -/
def bankBytes : BankSize → Int
  | .kib8  => 8192
  | .kib16 => 16384
  | .kib32 => 32768

end Sys2Proof.Machine
end

