-- ==== Sys2Proof/Machine/Operands.lean ====
section
/-! DEFINITION. The operand forms: what a port's value means and the domain tests of the rules. Every form is here: ints by `toInt`
(10_state.md R16), the mirroring code (30_encoding.md R50), characters (R53), translator operands (41_bank_translator.md R77, R80), sizes
(40_header_codec.md R68), code lengths (42_game_genie.md R87). -/

namespace Sys2Proof.Machine

open Sys2Proof

/-- An exact integer on an int port. Every result of the rules fits (D3), so nothing is lost there. -/
def toPort (v : Int) : IntPort := BitVec.ofInt 32 v

/-- The three mirroring kinds (R50). -/
inductive Mirroring where
  | horizontal
  | vertical
  | fourScreen
deriving DecidableEq, Repr

/-- The column `MIRR code` of R50's table. -/
def mirrCode : Mirroring → BitVec 2
  | .horizontal => 0
  | .vertical   => 1
  | .fourScreen => 2

/-- The mirroring kind of a `MIRR` code; code 3 names none (R50, R71). -/
def mirrOfCode (c : BitVec 2) : Option Mirroring :=
  match c.toNat with
  | 0 => some .horizontal
  | 1 => some .vertical
  | 2 => some .fourScreen
  | _ => none

/-- R68 step S1: a positive multiple of 16384 with 1 to 256 units. -/
def validPrgSize (v : Int) : Bool := 0 < v && v % prgUnit == 0 && 1 ≤ v / prgUnit && v / prgUnit ≤ prgUnitsMax

/-- R68 step S2: a multiple of 8192 with 0 to 255 units. -/
def validChrSize (v : Int) : Bool := 0 ≤ v && v % chrUnit == 0 && v / chrUnit ≤ chrUnitsMax

/-- R68 step S3: a mapper number a header can hold. -/
def validMapper (v : Int) : Bool := 0 ≤ v && v ≤ 255

/-- A valid bank size is one of the three of `BANK_SIZES` (R77). -/
def validBankSize (v : Int) : Bool := bankSizes.contains v

/-- A CPU address inside the CPU window (R80). -/
def inCpuWindow (v : Int) : Bool := cpuWinLo ≤ v && v ≤ cpuWinHi

/-- The length a code may have: 6 or 8 (R54, R87). -/
def codeLength (len : Int) : Option Nat :=
  if len = 6 then some 6 else if len = 8 then some 8 else none

/-- The upper-case form of an ASCII character: 0x61 to 0x7A become 0x41 to 0x5A (R53). -/
def upperCase (c : Byte) : Byte := if 0x61 ≤ c.toNat ∧ c.toNat ≤ 0x7A then c - 0x20 else c

/-- `value(c)` of R86: the position in `ALPHABET` of the upper-case form of `c`; `none` when `c` is no member character (R53). -/
def letterValue (c : Byte) : Option Nibble := (alphabet.toList.idxOf? (upperCase c)).map (BitVec.ofNat 4)

/-- `ALPHABET[v]` of R86, always upper case. -/
def letterOf (v : Nibble) : Byte := alphabet[v.toNat]'v.isLt

end Sys2Proof.Machine
end

