-- ==== Sys2Proof/Machine/Flags.lean ====
section
/-! DEFINITION. The block's condition information (10_state.md R18): the 4-bit `STATUS` (30_encoding.md R60) and the warning flag `UNKNOWN`,
with the other result ports that are computed from what an answer holds (R17: `COUNT`, `LEN`, `HASCMP`). -/

namespace Sys2Proof.Machine

open Sys2Proof

/-- The `STATUS` code of an error kind (R60). -/
def ErrorKind.code : ErrorKind → BitVec 4
  | .badMagic          => 1
  | .tooShort          => 2
  | .truncated         => 3
  | .invalidPrgSize    => 4
  | .invalidChrSize    => 5
  | .invalidMapper     => 6
  | .invalidCode       => 7
  | .invalidArgument   => 8
  | .addressOutOfRange => 9

/-- The port `STATUS`: 0 is `OK` (R60). -/
def Answer.statusCode : Answer → BitVec 4
  | .ok _    => 0
  | .error e => e.code

/-- The port `UNKNOWN`, which exists on the three table operations only, beside `OK` (R18, R103). -/
def Answer.unknown : Answer → Option Bool
  | .ok (.bankMin _ u)  => some u
  | .ok (.bankMinc _ u) => some u
  | .ok (.bankIssw _ u) => some u
  | _ => none

/-- The ports `ADDR[0..COUNT-1]` of a sequence result (R26). -/
def Answer.addr : Answer → Option (List IntPort)
  | .ok (.bankP2c l)  => some l
  | .ok (.bankC2p l)  => some l
  | .ok (.bankC2pf l) => some l
  | _ => none

/-- The port `COUNT`: how many elements a sequence result has (R26). -/
def Answer.count (a : Answer) : Option IntPort := a.addr.map fun l => toPort l.length

/-- The port `LEN` of a decoded triple (R90). -/
def Triple.len : Triple → Nat
  | .sixLetter _ _     => 6
  | .eightLetter _ _ _ => 8

/-- The port `HASCMP` of a decoded triple: `LEN` = 8 (R17, R90). -/
def Triple.hasCmp (t : Triple) : Bool := t.len == 8

/-- The port `ADDRESS` of a decoded triple. -/
def Triple.address : Triple → IntPort
  | .sixLetter a _     => a
  | .eightLetter a _ _ => a

/-- The port `REPLACEMENT` of a decoded triple. -/
def Triple.replacement : Triple → IntPort
  | .sixLetter _ r     => r
  | .eightLetter _ r _ => r

/-- The port `COMPARE` of a decoded triple, "defined only when `HASCMP` = 1" (R17). -/
def Triple.compare : Triple → Option IntPort
  | .sixLetter _ _     => none
  | .eightLetter _ _ c => some c

/-- The port `LEN` of GG.DEC and GG.ENC (R17). -/
def Answer.len : Answer → Option Nat
  | .ok (.ggDec t)  => some t.len
  | .ok (.ggEnc c)  => some c.length
  | _ => none

end Sys2Proof.Machine
end

