-- ==== Sys2Proof/Machine/Ops.lean ====
section
/-! DEFINITION. The operations every meaning shares: reading the bound buffers (`MemRead`, 00_scope.md R11), looking a mapper up
(41_bank_translator.md R72), ending an operation with an error (`raise`, 60_exceptions.md R110) or with its results, and reading the
operation-select port. -/

namespace Sys2Proof.Machine

open Sys2Proof

/-! ### Byte buffers -/

/-- The canonical form of a buffer: addresses strictly rising, each inside the buffer, no listed byte 0x00. -/
abbrev Memory.wf (m : Memory) : Prop :=
  m.cells.Pairwise (fun a b => a.1 < b.1) ∧ ∀ c ∈ m.cells, c.1 < m.size ∧ c.2 ≠ 0

/-- The byte an existing but unlisted address holds (log 6). -/
def unlistedByte : Byte := 0

/-- The byte at an address; `none` where the buffer has no such address. -/
def Memory.read (m : Memory) (a : Nat) : Option Byte :=
  if a < m.size then some ((m.cells.lookup a).getD unlistedByte) else none

/-- Set one cell of a rising list; the unlisted byte removes the entry. -/
def setCell (a : Nat) (b : Byte) : List Host.Cell → List Host.Cell
  | [] => if b = unlistedByte then [] else [(a, b)]
  | (k, v) :: rest =>
    if a < k then (if b = unlistedByte then (k, v) :: rest else (a, b) :: (k, v) :: rest)
    else if a = k then (if b = unlistedByte then rest else (a, b) :: rest)
    else (k, v) :: setCell a b rest

/-- The HOST's write of one byte of a buffer it owns, between operations (70_reset_and_hazards.md R122). The block itself writes no
memory (R36). An address outside the buffer does not exist and nothing is written. -/
def Memory.write (m : Memory) (a : Nat) (b : Byte) : Memory :=
  if a < m.size then { m with cells := setCell a b m.cells } else m

/-- A buffer of `n` bytes, all 0x00. -/
def Memory.blank (n : Nat) : Memory := ⟨n, []⟩

/-- The buffer that holds the given bytes from address 0 on, as a host binds it. -/
def Memory.ofBytes (bs : List Byte) : Memory :=
  bs.zipIdx.foldl (fun m c => m.write c.2 c.1) (Memory.blank bs.length)

/-- The canonical form of a mapper table: keys strictly rising, so each key has one size (R20). -/
abbrev mapperTableWf (t : MapperTable) : Prop := t.Pairwise (fun a b => a.1 < b.1)

/-! ### Reading the request -/

/-- The byte spaces `MemRead` names (R11). -/
inductive Space where
  | hdrBuf
  | prg
deriving DecidableEq, Repr

/-- `MemRead(space, addr, 1)`; `none` where the space has no such address (R28, R31). -/
def memRead (sp : Space) (a : Nat) (s : State) : Option Byte :=
  match sp with
  | .hdrBuf => s.hdrBuf[a]?
  | .prg    => s.prg.read a

/-- R64 step S2: the sixteen bytes of `HDRBUF`. -/
def readHeader (s : State) : Vector Byte 16 := s.hdrBuf

/-- The operation-select port as the byte the decoder reads, bits 7:4 zero (R58; log 9). -/
def fetch (s : State) : List Byte := [s.op.setWidth 8]

/-- `lookup(m)` of R72: the table's size and flag 0, or the fallback and flag 1 when `m` is no key. Defined for every integer. -/
def lookupMapper (t : MapperTable) (m : Int) : Int × Bool :=
  match t.find? (fun e => (e.1.val : Int) == m) with
  | some e => (bankBytes e.2, false)
  | none   => (unknownBank, true)

/-- The while loop of R78, R81 and R84: `start`, `start + step`, … while below `limit`. R124: the loop ends, since every pass raises the
candidate by `step ≥ 1`, and the first argument bounds its passes (log 18). -/
def stepsBelow : Nat → Int → Int → Int → List Int
  | 0, _, _, _ => []
  | n + 1, start, step, limit => if start < limit then start :: stepsBelow n (start + step) step limit else []

/-- That loop with a bound on its passes that is never reached first: `limit − start`. -/
def sequenceBelow (start step limit : Int) : List Int := stepsBelow (limit - start).toNat start step limit

/-! ### Ending an operation -/

/-- The one effect an operation has on the state: its answer stands on the status and result ports (R15). -/
def State.setAnswer (s : State) (a : Answer) : State := { s with answer := some a }

/-- `raise E()`, the block's exception entry (R110): "the operation ends at once; `STATUS` is `E`; no result port is written", no state is
saved and control goes nowhere. There is no return operation: the next operation is simply performed (R111). -/
def raise (e : ErrorKind) (s : State) : Host.Outcome State Fault Refusal := .next (s.setAnswer (.error e))

/-- Completing with `STATUS` = `OK` and the results written (R17, R25). -/
def complete (r : Result) (s : State) : Host.Outcome State Fault Refusal := .next (s.setAnswer (.ok r))

end Sys2Proof.Machine
end

