-- ==== Sys2Proof/Machine/Bank.lean ====
section
/-! DEFINITION. The Mapper Bank-Size Table and Address Translator: BANK.MIN, BANK.MINC, BANK.ISSW, BANK.P2C, BANK.C2P, BANK.C2PF
(41_bank_translator.md). -/

namespace Sys2Proof.Machine

open Sys2Proof

/-- BANK.MIN (R73). -/
def execBankMin (s : State) : Host.Outcome State Fault Refusal :=
  complete (.bankMin (toPort (lookupMapper s.mapperTable s.mapper.toInt).1) (lookupMapper s.mapperTable s.mapper.toInt).2) s

/-- BANK.MINC (R75): the plain minimum of the unclamped lookup and `PRGSIZE`. -/
def execBankMinc (s : State) : Host.Outcome State Fault Refusal :=
  complete (.bankMinc (toPort (min (lookupMapper s.mapperTable s.mapper.toInt).1 s.prgSize.toInt))
    (lookupMapper s.mapperTable s.mapper.toInt).2) s

/-- BANK.ISSW (R76): strictly greater than the unclamped lookup. -/
def execBankIssw (s : State) : Host.Outcome State Fault Refusal :=
  complete (.bankIssw (decide (s.prgSize.toInt > (lookupMapper s.mapperTable s.mapper.toInt).1))
    (lookupMapper s.mapperTable s.mapper.toInt).2) s

/-- The sequence of R78: one CPU address per slot of the window, ascending. -/
def prgToCpu (prgAddr bankSize : Int) : List Int := sequenceBelow (cpuWinLo + prgAddr % bankSize) bankSize cpuTop

/-- The sequence of R81: the candidate PRG offsets, ascending. -/
def cpuToPrg (cpuAddr bankSize prgSize : Int) : List Int := sequenceBelow (cpuAddr % bankSize) bankSize prgSize

/-- BANK.P2C (R77, R78). -/
def execBankP2c (s : State) : Host.Outcome State Fault Refusal :=
  if !validBankSize s.bankSize.toInt || s.prgAddr.toInt < 0 then raise .addressOutOfRange s
  else complete (.bankP2c ((prgToCpu s.prgAddr.toInt s.bankSize.toInt).map toPort)) s

/-- BANK.C2P (R77, R80, R81). -/
def execBankC2p (s : State) : Host.Outcome State Fault Refusal :=
  if !validBankSize s.bankSize.toInt || !inCpuWindow s.cpuAddr.toInt then raise .addressOutOfRange s
  else complete (.bankC2p ((cpuToPrg s.cpuAddr.toInt s.bankSize.toInt s.prgSize.toInt).map toPort)) s

/-- The filter of R84: the candidates whose byte is `COMPARE`, in their order, each read once. A candidate lies below `PRGSIZE`, so in a
buffer of at least that size its byte is there (`candidate_present`). -/
def filterByByte (s : State) (candidates : List Int) : List Int :=
  candidates.filter fun p => memRead .prg p.toNat s == some s.compareByte

/-- "a `PRG` buffer shorter than `PRGSIZE`" (U11). -/
def prgBufferShort (s : State) : Bool := (s.prg.size : Int) < s.prgSize.toInt

/-- BANK.C2PF (R77, R80, R84). On the translator's domain a buffer shorter than `PRGSIZE` is refused, whatever the candidates (U11; log 7). -/
def execBankC2pf (s : State) : Host.Outcome State Fault Refusal :=
  if !validBankSize s.bankSize.toInt || !inCpuWindow s.cpuAddr.toInt then raise .addressOutOfRange s
  else if prgBufferShort s then .refused .prgBufferShort
  else complete (.bankC2pf ((filterByByte s (cpuToPrg s.cpuAddr.toInt s.bankSize.toInt s.prgSize.toInt)).map toPort)) s

end Sys2Proof.Machine
end

