-- ==== Sys2Proof/Machine/GameGenie.lean ====
section
/-! DEFINITION. The Game Genie Cipher: GG.DEC, GG.ENC and the composite GG.CANON (42_game_genie.md R86 to R95; 30_encoding.md R52 to R56, R62). -/

namespace Sys2Proof.Machine

open Sys2Proof

/-- R87 step S2: the values of the first `len` characters; `none` when one of them is no member character. -/
def readLetters (code : Vector Byte 8) (len : Nat) : Option (List Nibble) := (code.toList.take len).mapM letterValue

/-- Letter `i` of a code. -/
def letterAt (n : List Nibble) (i : Nat) : Nibble := n.getD i 0

/-- One pass of the loop of R88: bit 3 of letter `(p − 1) mod L` and bits 2:0 of letter `p` are appended at the low end. -/
def accumulateStep (n : List Nibble) (len : Nat) (acc : BitVec 32) (p : Nat) : BitVec 32 :=
  (acc <<< 4) ||| ((letterAt n ((p + len - 1) % len) &&& 8) ||| (letterAt n p &&& 7)).setWidth 32

/-- `accumulate(n, L)` of R88: the key truncated to the code's length, in its order. -/
def accumulate (n : List Nibble) (len : Nat) : BitVec 32 := (key.take len).foldl (accumulateStep n len) 0

/-- `split(acc, L)` of R89 for six letters: the address's top bit is forced to 1. -/
def splitSix (acc : BitVec 32) : Triple :=
  .sixLetter ((acc.extractLsb' 8 16 ||| 0x8000).setWidth 32) ((acc.extractLsb' 0 8).setWidth 32)

/-- `split(acc, L)` of R89 for eight letters. -/
def splitEight (acc : BitVec 32) : Triple :=
  .eightLetter ((acc.extractLsb' 16 16 ||| 0x8000).setWidth 32) ((acc.extractLsb' 8 8).setWidth 32) ((acc.extractLsb' 0 8).setWidth 32)

/-- The triple of a code's letter values (R88, R89). -/
def decodeLetters (n : List Nibble) (len : Nat) : Triple :=
  if len = 6 then splitSix (accumulate n len) else splitEight (accumulate n len)

/-- The whole of GG.DEC on its operands (R87 to R90). -/
def decodeCode (len : Int) (code : Vector Byte 8) : Except ErrorKind Triple :=
  match codeLength len with
  | none => .error .invalidCode
  | some l =>
    match readLetters code l with
    | none   => .error .invalidCode
    | some n => .ok (decodeLetters n l)

/-- GG.DEC (R87). -/
def execGgDec (s : State) : Host.Outcome State Fault Refusal :=
  match decodeCode s.len.toInt s.code with
  | .error e => raise e s
  | .ok t    => complete (.ggDec t) s

/-- R91 step S1; `compare` is the operand when `HASCMP` = 1, `none` when it is absent and not examined. -/
def validTriple (address replacement : Int) (compare : Option Int) : Bool :=
  (0 ≤ address && address ≤ 0xFFFF) && (0 ≤ replacement && replacement ≤ 255)
    && (match compare with | none => true | some c => 0 ≤ c && c ≤ 255)

/-- `pack` of R92 for six letters: the address's top bit is cleared. -/
def packSix (address : BitVec 16) (replacement : Byte) : BitVec 32 :=
  ((address &&& 0x7FFF).setWidth 32 <<< 8) ||| replacement.setWidth 32

/-- `pack` of R92 for eight letters: the address's top bit is set. -/
def packEight (address : BitVec 16) (replacement compare : Byte) : BitVec 32 :=
  ((address ||| 0x8000).setWidth 32 <<< 16) ||| (replacement.setWidth 32 <<< 8) ||| compare.setWidth 32

/-- One pass of the loop of R93: the lowest nibble goes to letters `p` and `(p − 1) mod L`, and leaves the accumulator. -/
def distributeStep (len : Nat) (st : BitVec 32 × List Nibble) (p : Nat) : BitVec 32 × List Nibble :=
  (st.1 >>> 4,
    (st.2.modify p (· ||| (st.1.setWidth 4 &&& 7))).modify ((p + len - 1) % len) (· ||| (st.1.setWidth 4 &&& 8)))

/-- `distribute(acc, L)` of R93: the truncated key in reverse order. -/
def distribute (acc : BitVec 32) (len : Nat) : List Nibble :=
  ((key.take len).reverse.foldl (distributeStep len) (acc, List.replicate len 0)).2

/-- R92 to R94 on valid operands: six letters when `compare` is absent, eight when it is present. -/
def encodeTriple (address replacement : Int) (compare : Option Int) : List Byte :=
  match compare with
  | none   => (distribute (packSix (BitVec.ofInt 16 address) (BitVec.ofInt 8 replacement)) 6).map letterOf
  | some c => (distribute (packEight (BitVec.ofInt 16 address) (BitVec.ofInt 8 replacement) (BitVec.ofInt 8 c)) 8).map letterOf

/-- The whole of GG.ENC on its operands (R91 to R94). -/
def encodeCode (address replacement : Int) (compare : Option Int) : Except ErrorKind (List Byte) :=
  if validTriple address replacement compare then .ok (encodeTriple address replacement compare) else .error .invalidArgument

/-- The compare operand of GG.ENC: absent when `HASCMP` = 0, whatever the port holds (R91). -/
def compareOperand (s : State) : Option Int := if s.hasCmp then some s.compareInt.toInt else none

/-- GG.ENC (R91). -/
def execGgEnc (s : State) : Host.Outcome State Fault Refusal :=
  match encodeCode s.address.toInt s.replacement.toInt (compareOperand s) with
  | .error e => raise e s
  | .ok c    => complete (.ggEnc c) s

/-- GG.CANON of R62: GG.DEC, then on success GG.ENC of the decoded triple. A composite of the host's, no operation of the block (log 20). -/
def canonicalCode (len : Int) (code : Vector Byte 8) : Except ErrorKind (List Byte) :=
  match decodeCode len code with
  | .error e => .error e
  | .ok t    => encodeCode t.address.toInt t.replacement.toInt (t.compare.map BitVec.toInt)

end Sys2Proof.Machine
end

