-- ==== Sys2Proof/Machine/Header.lean ====
section
/-! DEFINITION. The iNES Header Codec: HDR.DEC and HDR.ENC (40_header_codec.md; layout 30_encoding.md R44 to R51). -/

namespace Sys2Proof.Machine

open Sys2Proof

/-- What `parse` extracts (R65). -/
structure HeaderFields where
  prgSize     : Nat
  chrSize     : Nat
  trainerSize : Nat
  mirroring   : Mirroring
  extraRam    : Bool
  mapper      : Nat
deriving DecidableEq, Repr

/-- R64 step S3: bytes 0 to 3 are `MAGIC`, compared byte by byte (R33). -/
def hasMagic (b : Vector Byte 16) : Bool := [b[0], b[1], b[2], b[3]] == magic

/-- `mirroring` from byte 6: bit 3 "overrides bit 0 when set" (R50, R65). -/
def parseMirroring (b6 : Byte) : Mirroring :=
  if b6.getLsbD 3 then .fourScreen else if b6.getLsbD 0 then .vertical else .horizontal

/-- `parse(b)` of R65, from bytes 4 to 7 and nothing else. -/
def parseHeader (b : Vector Byte 16) : HeaderFields where
  prgSize     := (if b[4] = 0 then prgUnitsMax else b[4].toNat) * prgUnit
  chrSize     := b[5].toNat * chrUnit
  trainerSize := if b[6].getLsbD 2 then trainerLen else 0
  mirroring   := parseMirroring b[6]
  extraRam    := b[6].getLsbD 1
  mapper      := (((b[7] >>> 4) <<< 4) ||| (b[6] >>> 4)).toNat

/-- The length the header declares (R66). -/
def requiredLength (f : HeaderFields) : Nat := hdrLen + f.trainerSize + f.prgSize + f.chrSize

/-- The nine result ports (R67). -/
def headerResult (f : HeaderFields) : Header where
  trainerStart := toPort hdrLen
  trainerSize  := toPort f.trainerSize
  prgStart     := toPort (hdrLen + f.trainerSize)
  prgSize      := toPort f.prgSize
  chrStart     := toPort (hdrLen + f.trainerSize + f.prgSize)
  chrSize      := toPort f.chrSize
  mapper       := toPort f.mapper
  mirr         := mirrCode f.mirroring
  xram         := f.extraRam

/-- HDR.DEC, steps S1 to S6 of R64. -/
def execHdrDec (s : State) : Host.Outcome State Fault Refusal :=
  if s.avail.toInt < hdrLen then raise .tooShort s
  else if hasMagic (readHeader s) then
    if (requiredLength (parseHeader (readHeader s)) : Int) > s.fileLen.toInt then raise .truncated s
    else complete (.hdrDec (headerResult (parseHeader (readHeader s)))) s
  else raise .badMagic s

/-- Byte 6 of an encoded header (R69): mapper low nibble, four-screen bit 3, trainer bit 2 always 0, extra RAM bit 1, vertical bit 0. -/
def packByte6 (mapper : Byte) (mirroring : Mirroring) (xram : Bool) : Byte :=
  (mapper <<< 4)
    ||| (if mirroring = .fourScreen then 8 else 0)
    ||| (if xram then 2 else 0)
    ||| (if mirroring = .vertical then 1 else 0)

/-- The sixteen result bytes of HDR.ENC (R69). -/
def packHeader (prgSize chrSize mapper : Int) (mirroring : Mirroring) (xram : Bool) : Vector Byte 16 :=
  #v[0x4E, 0x45, 0x53, 0x1A,
     BitVec.ofInt 8 (prgSize / prgUnit % 256),
     BitVec.ofInt 8 (chrSize / chrUnit),
     packByte6 (BitVec.ofInt 8 mapper) mirroring xram,
     (BitVec.ofInt 8 mapper >>> 4) <<< 4,
     0, 0, 0, 0, 0, 0, 0, 0]

/-- HDR.ENC, steps S1 to S4 of R68. `MIRR` = 3 is outside the operation's domain and is refused before any test (R71; log 8). -/
def execHdrEnc (s : State) : Host.Outcome State Fault Refusal :=
  match mirrOfCode s.mirr with
  | none => .refused .mirrCodeReserved
  | some mirroring =>
    if !validPrgSize s.prgSize.toInt then raise .invalidPrgSize s
    else if !validChrSize s.chrSize.toInt then raise .invalidChrSize s
    else if !validMapper s.mapper.toInt then raise .invalidMapper s
    else complete (.hdrEnc (packHeader s.prgSize.toInt s.chrSize.toInt s.mapper.toInt mirroring s.xram)) s

end Sys2Proof.Machine
end

