-- ==== Sys2Proof/Machine/Tile.lean ====
section
/-! DEFINITION. The Tile Bitplane Codec: TILE.DEC and TILE.ENC on one slice (43_tile_codec.md R96 to R100; 30_encoding.md R57). -/

namespace Sys2Proof.Machine

open Sys2Proof

/-- Pixel `i` of a slice (R97): the high plane's bit `7 − i`, then the low plane's. -/
def slicePixel (lo hi : Byte) (i : Nat) : Pixel :=
  ((BitVec.ofBool (hi.getLsbD (7 - i))).setWidth 2 <<< 1) ||| (BitVec.ofBool (lo.getLsbD (7 - i))).setWidth 2

/-- The eight pixels, leftmost first (R97). -/
def decodeSlice (lo hi : Byte) : Vector Pixel 8 := Vector.ofFn fun i => slicePixel lo hi i.val

/-- A plane byte: bit `plane` of each pixel shifted in, in left-to-right order (R99). -/
def encodePlane (plane : Nat) (px : Vector Pixel 8) : Byte :=
  px.toList.foldl (fun acc p => (acc <<< 1) ||| (BitVec.ofBool (p.getLsbD plane)).setWidth 8) 0

/-- TILE.DEC (R97). -/
def execTileDec (s : State) : Host.Outcome State Fault Refusal := complete (.tileDec (decodeSlice s.lo s.hi)) s

/-- TILE.ENC (R99). -/
def execTileEnc (s : State) : Host.Outcome State Fault Refusal := complete (.tileEnc (encodePlane 0 s.px) (encodePlane 1 s.px)) s

end Sys2Proof.Machine
end

