-- ==== Sys2Proof/Machine/Dispatch.lean ====
section
/-! DEFINITION. One arm per operation. -/

namespace Sys2Proof.Machine

open Sys2Proof

-- The meaning of the operation the host has presented.
def exec (i : Instr) (s : State) : Host.Outcome State Fault Refusal :=
  match i with
  | .hdrDec => Sys2Proof.Machine.execHdrDec s
  | .hdrEnc => Sys2Proof.Machine.execHdrEnc s
  | .bankMin => Sys2Proof.Machine.execBankMin s
  | .bankMinc => Sys2Proof.Machine.execBankMinc s
  | .bankIssw => Sys2Proof.Machine.execBankIssw s
  | .bankP2c => Sys2Proof.Machine.execBankP2c s
  | .bankC2p => Sys2Proof.Machine.execBankC2p s
  | .bankC2pf => Sys2Proof.Machine.execBankC2pf s
  | .ggDec => Sys2Proof.Machine.execGgDec s
  | .ggEnc => Sys2Proof.Machine.execGgEnc s
  | .tileDec => Sys2Proof.Machine.execTileDec s
  | .tileEnc => Sys2Proof.Machine.execTileEnc s

end Sys2Proof.Machine
end

