-- ==== Sys2Proof/Machine/Step.lean ====
section
/-! DEFINITION. One step: the operation the `OP` port selects is performed on the ports and buffers the host presents (10_state.md R15,
30_encoding.md R58). -/

namespace Sys2Proof.Machine

open Sys2Proof

/-- One whole operation (R15). A code that selects none is refused (R59). There is no program counter to advance (R14): the host presents
the next operation by writing the ports, and a step without such a write performs the same operation again (log 10). -/
def step (s : State) : Host.Outcome State Fault Refusal :=
  match decode (fetch s) with
  | .ok (i, _) => exec i s
  | .error _   => .refused (.reservedOp s.op)

/-- The state in which a row's word is presented: its bits 3:0 on the `OP` port, everything else as before. The block loads and holds no
program (R14), so this is the host's act of presenting an operation (log 10). -/
def State.withFetchWord (s : State) (_nbits w : Nat) : State := { s with op := BitVec.ofNat 4 w }

end Sys2Proof.Machine
end

