-- ==== Sys2Proof/Safety.lean ====
section
/-! DEFINITION. What counts as a safe run, in the terms claims use: the host's duties, the exact cause of each error, the ports each
operation is a function of, and the invariant of the state. -/

namespace Sys2Proof.Machine

open Sys2Proof

/-- What the host owes an operation for it to have a meaning at all (70_reset_and_hazards.md R120; R59, R71, R84): an `OP` code that selects
one, a `MIRR` code that names a kind, a `PRG` buffer of at least `PRGSIZE` bytes. -/
def HostDutiesMet (s : State) : Prop :=
  s.op.toNat < 12 ∧ (s.op = opCode .hdrEnc → s.mirr ≠ 3) ∧ (s.op = opCode .bankC2pf → s.prgSize.toInt ≤ s.prg.size)

/-- A step that answers. -/
def StepAnswers (s : State) : Prop := ∃ t, step s = .next t

/-- The two states present the operation with the same operands (R16), the same buffer bytes where it reads any (20_memory.md R28, R31), and
the same `MAPPER_TABLE` where it looks a mapper up (70_reset_and_hazards.md R119). For BANK.C2PF both buffers are shorter than `PRGSIZE` or
neither is (R84, U11; log 7). Characters from `LEN` on and the compare value of GG.ENC with `HASCMP` = 0 do not count (the spec's decisions D17
and D18). -/
def SameRequest : Instr → State → State → Prop
  | .hdrDec, s, u => s.avail = u.avail ∧ s.fileLen = u.fileLen ∧ (16 ≤ s.avail.toInt → s.hdrBuf = u.hdrBuf)
  | .hdrEnc, s, u =>
    s.prgSize = u.prgSize ∧ s.chrSize = u.chrSize ∧ s.mapper = u.mapper ∧ s.mirr = u.mirr ∧ s.xram = u.xram
  | .bankMin, s, u => s.mapper = u.mapper ∧ s.mapperTable = u.mapperTable
  | .bankMinc, s, u => s.prgSize = u.prgSize ∧ s.mapper = u.mapper ∧ s.mapperTable = u.mapperTable
  | .bankIssw, s, u => s.prgSize = u.prgSize ∧ s.mapper = u.mapper ∧ s.mapperTable = u.mapperTable
  | .bankP2c, s, u => s.prgAddr = u.prgAddr ∧ s.bankSize = u.bankSize
  | .bankC2p, s, u => s.cpuAddr = u.cpuAddr ∧ s.bankSize = u.bankSize ∧ s.prgSize = u.prgSize
  | .bankC2pf, s, u =>
    s.cpuAddr = u.cpuAddr ∧ s.bankSize = u.bankSize ∧ s.prgSize = u.prgSize ∧ s.compareByte = u.compareByte ∧
      (s.prgSize.toInt ≤ s.prg.size ↔ u.prgSize.toInt ≤ u.prg.size) ∧
      (s.prgSize.toInt ≤ s.prg.size → ∀ p : Nat, (p : Int) < s.prgSize.toInt →
        (p : Int) % s.bankSize.toInt = s.cpuAddr.toInt % s.bankSize.toInt → memRead .prg p s = memRead .prg p u)
  | .ggDec, s, u => s.len = u.len ∧ ∀ i : Fin 8, (i.val : Int) < s.len.toInt → s.code[i] = u.code[i]
  | .ggEnc, s, u =>
    s.address = u.address ∧ s.replacement = u.replacement ∧ s.hasCmp = u.hasCmp ∧ (s.hasCmp = true → s.compareInt = u.compareInt)
  | .tileDec, s, u => s.lo = u.lo ∧ s.hi = u.hi
  | .tileEnc, s, u => s.px = u.px

/-- The ranges R17 gives HDR.DEC's result ports and the relations of R23 among them. -/
def Header.inRange (h : Header) : Prop :=
  h.trainerStart.toInt = 16 ∧ (h.trainerSize.toInt = 0 ∨ h.trainerSize.toInt = 512) ∧
  h.prgStart.toInt = 16 + h.trainerSize.toInt ∧ h.chrStart.toInt = h.prgStart.toInt + h.prgSize.toInt ∧
  h.prgSize.toInt % 16384 = 0 ∧ 16384 ≤ h.prgSize.toInt ∧ h.prgSize.toInt ≤ 256 * 16384 ∧
  h.chrSize.toInt % 8192 = 0 ∧ 0 ≤ h.chrSize.toInt ∧ h.chrSize.toInt ≤ 255 * 8192 ∧
  0 ≤ h.mapper.toInt ∧ h.mapper.toInt ≤ 255 ∧ h.mirr ≠ 3

/-- Header bytes that `HDR.ENC` can reproduce (40_header_codec.md R70): no trainer, not both mirroring bits, reserved bits zero. -/
def canonicalHeader (b : Vector Byte 16) : Prop :=
  b[6].toNat / 4 % 2 = 0 ∧ ¬ (b[6].toNat / 8 % 2 = 1 ∧ b[6].toNat % 2 = 1) ∧ b[7].toNat % 16 = 0 ∧
  ∀ i : Fin 16, 8 ≤ i.val → b[i] = 0

/-- A sequence result ascends (R26). -/
def ascending (l : List IntPort) : Prop := l.Pairwise fun a b => a.toInt < b.toInt

/-- A CPU address in the window (R30), on an int port. -/
def portInWindow (a : IntPort) : Prop := 0x8000 ≤ a.toInt ∧ a.toInt ≤ 0xFFFF

/-- A byte value on an int port. -/
def portInByte (a : IntPort) : Prop := 0 ≤ a.toInt ∧ a.toInt ≤ 255

/-- The letters `A P Z L G I T Y` and `E O X U K S V N`, in ASCII (R52, R53). -/
def lowLetters : List Byte := [0x41, 0x50, 0x5A, 0x4C, 0x47, 0x49, 0x54, 0x59]
def highLetters : List Byte := [0x45, 0x4F, 0x58, 0x55, 0x4B, 0x53, 0x56, 0x4E]

/-- What R17, R23, R26, R69, R79, R82, R90 and R94 say of an answer's result ports. -/
def Result.inRange : Result → Prop
  | .hdrDec h     => h.inRange
  | .hdrEnc b     => b[0] = 0x4E ∧ b[1] = 0x45 ∧ b[2] = 0x53 ∧ b[3] = 0x1A ∧ canonicalHeader b
  | .bankMin z _  => z.toInt ∈ [8192, 16384, 32768]
  | .bankMinc z _ => z.toInt ≤ 32768
  | .bankIssw _ _ => True
  | .bankP2c l    => l.length ∈ [1, 2, 4] ∧ ascending l ∧ ∀ a ∈ l, portInWindow a
  | .bankC2p l    => ascending l ∧ ∀ a ∈ l, 0 ≤ a.toInt
  | .bankC2pf l   => ascending l ∧ ∀ a ∈ l, 0 ≤ a.toInt
  | .ggDec t      => portInWindow t.address ∧ portInByte t.replacement ∧ ∀ c, t.compare = some c → portInByte c
  | .ggEnc c      =>
    (∀ x ∈ c, x ∈ lowLetters ++ highLetters) ∧
      ((c.length = 6 ∧ c.getD 2 0 ∈ lowLetters) ∨ (c.length = 8 ∧ c.getD 2 0 ∈ highLetters))
  | .tileDec _    => True
  | .tileEnc _ _  => True

/-- The invariant: both plain-data maps are in canonical form and the answer held, if any, is one the rules allow. -/
def Inv (s : State) : Prop :=
  s.prg.wf ∧ mapperTableWf s.mapperTable ∧ ∀ r, s.answer = some (.ok r) → r.inRange

/-- The tables of R52 and R53 written out, one row per letter: value, upper-case code, lower-case code. -/
def letterTable : List (Nibble × Byte × Byte) :=
  [(0, 0x41, 0x61), (1, 0x50, 0x70), (2, 0x5A, 0x7A), (3, 0x4C, 0x6C),
   (4, 0x47, 0x67), (5, 0x49, 0x69), (6, 0x54, 0x74), (7, 0x59, 0x79),
   (8, 0x45, 0x65), (9, 0x4F, 0x6F), (10, 0x58, 0x78), (11, 0x55, 0x75),
   (12, 0x4B, 0x6B), (13, 0x53, 0x73), (14, 0x56, 0x76), (15, 0x4E, 0x6E)]

/-- The character spells the letter of value `v` in either case (R53). -/
def SpellsLetter (c : Byte) (v : Nibble) : Prop := ∃ row ∈ letterTable, row.1 = v ∧ (c = row.2.1 ∨ c = row.2.2)

/-- The character is the upper-case letter of value `v` (R53). -/
def IsUpperLetter (c : Byte) (v : Nibble) : Prop := ∃ row ∈ letterTable, row.1 = v ∧ c = row.2.1

/-- Bytes 0 to 3 are `4E 45 53 1A` (R101). -/
def MagicGood (b : Vector Byte 16) : Prop := b[0] = 0x4E ∧ b[1] = 0x45 ∧ b[2] = 0x53 ∧ b[3] = 0x1A

/-- `16 + trainerSize + prgSize + chrSize`, read from the header's bytes (R44, R101). -/
def declaredLength (b : Vector Byte 16) : Int :=
  16 + (if b[6].toNat / 4 % 2 = 1 then 512 else 0) + (if b[4].toNat = 0 then 256 else b[4].toNat : Nat) * 16384 + (b[5].toNat : Int) * 8192

/-- "a positive multiple of 16384 with 1 to 256 units" (R101). -/
def LegalPrgSize (v : Int) : Prop := ∃ u : Nat, 1 ≤ u ∧ u ≤ 256 ∧ v = u * 16384

/-- "a multiple of 8192 with 0 to 255 units" (R101). -/
def LegalChrSize (v : Int) : Prop := ∃ u : Nat, u ≤ 255 ∧ v = u * 8192

/-- The columns "raised by" and "exact cause" of 60_exceptions.md R101, one row per kind. HDR.ENC with `MIRR` 3 is outside the operation's
domain and has no status (R71). -/
def ErrorCause (e : ErrorKind) (i : Instr) (s : State) : Prop :=
  match e with
  | .badMagic => i = .hdrDec ∧ 16 ≤ s.avail.toInt ∧ ¬ MagicGood s.hdrBuf
  | .tooShort => i = .hdrDec ∧ s.avail.toInt < 16
  | .truncated => i = .hdrDec ∧ 16 ≤ s.avail.toInt ∧ MagicGood s.hdrBuf ∧ s.fileLen.toInt < declaredLength s.hdrBuf
  | .invalidPrgSize => i = .hdrEnc ∧ s.mirr ≠ 3 ∧ ¬ LegalPrgSize s.prgSize.toInt
  | .invalidChrSize => i = .hdrEnc ∧ s.mirr ≠ 3 ∧ LegalPrgSize s.prgSize.toInt ∧ ¬ LegalChrSize s.chrSize.toInt
  | .invalidMapper =>
    i = .hdrEnc ∧ s.mirr ≠ 3 ∧ LegalPrgSize s.prgSize.toInt ∧ LegalChrSize s.chrSize.toInt ∧ ¬ portInByte s.mapper
  | .invalidCode =>
    i = .ggDec ∧ ((s.len.toInt ≠ 6 ∧ s.len.toInt ≠ 8) ∨ ∃ k : Fin 8, (k.val : Int) < s.len.toInt ∧ ∀ v : Nibble, ¬ SpellsLetter s.code[k] v)
  | .invalidArgument =>
    i = .ggEnc ∧ (¬ (0 ≤ s.address.toInt ∧ s.address.toInt ≤ 0xFFFF) ∨ ¬ portInByte s.replacement ∨
      (s.hasCmp = true ∧ ¬ portInByte s.compareInt))
  | .addressOutOfRange =>
    (i = .bankP2c ∧ (s.bankSize.toInt ∉ [8192, 16384, 32768] ∨ s.prgAddr.toInt < 0)) ∨
      ((i = .bankC2p ∨ i = .bankC2pf) ∧ (s.bankSize.toInt ∉ [8192, 16384, 32768] ∨ ¬ portInWindow s.cpuAddr))

end Sys2Proof.Machine
end

