-- ==== Sys2Proof/Certificates/Slice0/Obligations.lean ====
section
/-! DEFINITION. The statements for the provers, about the rules of spec/. A value that the model chose is named where a statement rests on it. -/

open Sys2Proof Sys2Proof.Machine

/-! ### Selecting and performing an operation -/

/-- R58's table (the numbers are the spec's decision D2): the word of each row decodes to its operation. -/
def Obligations.OperationCodesDecode : Prop :=
  decodeTableWord 8 0b0000 = some .hdrDec ∧ decodeTableWord 8 0b0001 = some .hdrEnc ∧
  decodeTableWord 8 0b0010 = some .bankMin ∧ decodeTableWord 8 0b0011 = some .bankMinc ∧
  decodeTableWord 8 0b0100 = some .bankIssw ∧ decodeTableWord 8 0b0101 = some .bankP2c ∧
  decodeTableWord 8 0b0110 = some .bankC2p ∧ decodeTableWord 8 0b0111 = some .bankC2pf ∧
  decodeTableWord 8 0b1000 = some .ggDec ∧ decodeTableWord 8 0b1001 = some .ggEnc ∧
  decodeTableWord 8 0b1010 = some .tileDec ∧ decodeTableWord 8 0b1011 = some .tileEnc

/-- Decoding gives back what was encoded, and nothing but an operation's own bytes decodes to it (that a code is carried in one byte whose high
bits are 0 is the model's choice, log 9). -/
def Obligations.DecodeAndEncodeAgree : Prop :=
  (∀ (i : Instr) (rest : List Byte), decode (encode i ++ rest) = .ok (i, rest)) ∧
  (∀ (bs rest : List Byte) (i : Instr), decode bs = .ok (i, rest) → bs = encode i ++ rest)

/-- R59 (the spec's decision D25): codes 12 to 15 select no operation and are refused, whatever the ports hold; every other code selects an
operation, so there is no hint and no custom space. -/
def Obligations.ReservedCodesRefused : Prop :=
  (∀ s : State, 12 ≤ s.op.toNat → step s = .refused (.reservedOp s.op)) ∧
  (∀ s : State, s.op.toNat < 12 → ∃ i : Instr, s.op = opCode i ∧ step s = exec i s)

/-- A step performs the operation the `OP` port selects, and adds nothing around it (there is no program counter, R14). -/
def Obligations.StepPerformsSelectedOperation : Prop :=
  (∀ (s : State) (i : Instr) (rest : List Byte), decode (fetch s) = .ok (i, rest) → step s = exec i s) ∧
  (∀ (s : State) (i : Instr), s.op = opCode i → step s = exec i s)

/-! ### The whole machine -/

/-- R15, R36: an operation writes its answer and changes nothing else, and every byte of both spaces reads as before. -/
def Obligations.OperationChangesOnlyTheAnswer : Prop :=
  ∀ (i : Instr) (s t : State), exec i s = .next t →
    (∃ a : Answer, t = { s with answer := some a }) ∧ ∀ (sp : Space) (x : Nat), memRead sp x t = memRead sp x s

/-- R101: each error kind is raised by exactly the operations, and for exactly the cause, that its row of the table gives; raising it leaves
everything but the answer as it was; the kinds have the codes 1 to 9. Several rows hold the spec's decisions: the codes D4, the two lengths D9,
the order of HDR.ENC's tests D8, `MIRR` 3 set apart D5, the translator's domain D14, the characters D16, the length D17, the absent compare D18. -/
def Obligations.ErrorsHaveTheirExactCauses : Prop :=
  (∀ (i : Instr) (s : State) (e : ErrorKind), exec i s = .next { s with answer := some (.error e) } ↔ ErrorCause e i s) ∧
  (∀ (i : Instr) (s t : State) (e : ErrorKind), exec i s = .next t → t.answer = some (.error e) → t = { s with answer := some (.error e) }) ∧
  [ErrorKind.badMagic, .tooShort, .truncated, .invalidPrgSize, .invalidChrSize, .invalidMapper, .invalidCode, .invalidArgument,
    .addressOutOfRange].map (fun e => (ErrorKind.code e).toNat) = [1, 2, 3, 4, 5, 6, 7, 8, 9]

/-- R102: five operations raise nothing for any operands, the translator raises nothing on its domain (BANK.C2PF with the buffer the host
owes it), and nothing ever faults. The translator's domain is the spec's decision D14. -/
def Obligations.OperationsThatRaiseNothing : Prop :=
  (∀ (i : Instr) (s : State), i ∈ [Instr.bankMin, .bankMinc, .bankIssw, .tileDec, .tileEnc] →
    ∃ r : Result, exec i s = .next { s with answer := some (.ok r) }) ∧
  (∀ s : State, s.bankSize.toInt ∈ [8192, 16384, 32768] →
    (0 ≤ s.prgAddr.toInt → ∃ r : Result, exec .bankP2c s = .next { s with answer := some (.ok r) }) ∧
    (portInWindow s.cpuAddr →
      (∃ r : Result, exec .bankC2p s = .next { s with answer := some (.ok r) }) ∧
      (s.prgSize.toInt ≤ s.prg.size → ∃ r : Result, exec .bankC2pf s = .next { s with answer := some (.ok r) }))) ∧
  (∀ (i : Instr) (s : State) (f : Fault), exec i s ≠ .fault f)

/-- R60 (the numbers are the spec's decision D4): the codes of the nine kinds, and 0 for every operation that completes. -/
def Obligations.StatusCodesOfTheKinds : Prop :=
  (∀ r : Result, (Answer.ok r).statusCode = 0) ∧
  (Answer.error .badMagic).statusCode = 1 ∧ (Answer.error .tooShort).statusCode = 2 ∧ (Answer.error .truncated).statusCode = 3 ∧
  (Answer.error .invalidPrgSize).statusCode = 4 ∧ (Answer.error .invalidChrSize).statusCode = 5 ∧
  (Answer.error .invalidMapper).statusCode = 6 ∧ (Answer.error .invalidCode).statusCode = 7 ∧
  (Answer.error .invalidArgument).statusCode = 8 ∧ (Answer.error .addressOutOfRange).statusCode = 9

/-- R111: after an operation, an error included, the next operation, whatever it is, does what it would have done had the first never been
presented; the same operands give the same answer again. -/
def Obligations.AnOperationLeavesNoTrace : Prop :=
  (∀ (i j : Instr) (s t : State), exec i s = .next t → exec j t = exec j s) ∧
  (∀ (i : Instr) (s t : State), exec i s = .next t → exec i t = .next t)

/-- A step without a host's write in between performs the same request again and gives the same answer (the model's reading of a step, log 10). -/
def Obligations.SameRequestSameAnswerAgain : Prop :=
  ∀ s t : State, step s = .next t → step t = .next t

/-- R13, R18, R41: an operation's outcome is a function of its own ports, the bytes it reads and, for the table operations, the table. For
BANK.C2PF it depends also on whether the buffer is shorter than `PRGSIZE`, where it is refused (R84, U11; log 7). That GG.DEC ignores the
characters from `LEN` on and GG.ENC an absent compare value are the spec's decisions D17 and D18 (log 13). -/
def Obligations.OutcomeDependsOnOwnPorts : Prop :=
  ∀ (i : Instr) (s u : State), SameRequest i s u →
    (∀ t, exec i s = .next t → exec i u = .next { u with answer := t.answer }) ∧
    (∀ r, exec i s = .refused r → exec i u = .refused r)

/-- The only stops inside an operation: `MIRR` 3 on HDR.ENC (R71; log 8), and a bound `PRG` buffer shorter than `PRGSIZE` on BANK.C2PF, on the
translator's domain (R84, U11; log 7). -/
def Obligations.RefusalsAreTheTwoNamed : Prop :=
  ∀ (i : Instr) (s : State) (r : Refusal), exec i s = .refused r →
    (i = .hdrEnc ∧ s.mirr = 3 ∧ r = .mirrCodeReserved) ∨
    (i = .bankC2pf ∧ r = .prgBufferShort ∧ (s.prg.size : Int) < s.prgSize.toInt ∧
      s.bankSize.toInt ∈ [8192, 16384, 32768] ∧ portInWindow s.cpuAddr)

/-- A step answers wherever the host meets its duties (R120; `OP` below 12, R59; `MIRR` not 3, R71). -/
def Obligations.StepAnswersUnderHostDuties : Prop :=
  ∀ s : State, HostDutiesMet s → StepAnswers s

/-- R24: after reset `MAPPER_TABLE` is the parameter's value and no answer exists (how the model holds both: logs 1 and 3). -/
def Obligations.ResetBindsTheParameter : Prop :=
  (∀ (k : Fin 256) (b : BankSize), (k, b) ∈ State.reset.mapperTable ↔ Config.mapperTable k = some b) ∧ State.reset.answer = none

/-- The invariant holds after reset (the canonical forms of logs 1 and 6). -/
def Obligations.ResetMeetsInvariant : Prop := Inv State.reset

/-- Every step keeps the invariant (the canonical forms of logs 1 and 6): buffers and table stay canonical and the answer's ports lie in the
ranges of the rules. Several ranges are decisions of the spec (log 13): `TRAINERSTART` 16 (D10), a mirroring code other than 3 (D5), bit 0 of byte 6
for four-screen and byte 7's low bits in an encoded header (R69; D6, D7), sequences from `k` = 0 on (D13), letters in upper-case ASCII (D16, D19).
Of R23 it holds all but the relation to `FILELEN`, which is an operand and not in the answer (`DecodedHeaderIsConsistent` has it). -/
def Obligations.StepKeepsInvariant : Prop :=
  ∀ s t : State, Inv s → step s = .next t → Inv t

/-! ### The iNES header codec -/

/-- HDR.DEC whole (R64 to R67): the three errors in their order and the nine results, each field read from the header's bytes by division and
remainder. The mirroring codes, the two length operands and `TRAINERSTART` are the spec's decisions D5, D9 and D10. -/
def Obligations.HdrDecSteps : Prop :=
  ∀ (s : State) (b : Vector Byte 16) (prg chr trn mapper : Int) (mirr : BitVec 2),
    b = s.hdrBuf →
    prg = ((if b[4].toNat = 0 then 256 else b[4].toNat : Nat) : Int) * 16384 →
    chr = (b[5].toNat : Int) * 8192 →
    trn = (if b[6].toNat / 4 % 2 = 1 then 512 else 0) →
    mapper = (b[7].toNat / 16 : Nat) * 16 + (b[6].toNat / 16 : Nat) →
    mirr = (if b[6].toNat / 8 % 2 = 1 then 2 else if b[6].toNat % 2 = 1 then 1 else 0) →
    (s.avail.toInt < 16 → exec .hdrDec s = .next { s with answer := some (.error .tooShort) }) ∧
    (16 ≤ s.avail.toInt → ¬ (b[0] = 0x4E ∧ b[1] = 0x45 ∧ b[2] = 0x53 ∧ b[3] = 0x1A) →
      exec .hdrDec s = .next { s with answer := some (.error .badMagic) }) ∧
    (16 ≤ s.avail.toInt → (b[0] = 0x4E ∧ b[1] = 0x45 ∧ b[2] = 0x53 ∧ b[3] = 0x1A) → 16 + trn + prg + chr > s.fileLen.toInt →
      exec .hdrDec s = .next { s with answer := some (.error .truncated) }) ∧
    (16 ≤ s.avail.toInt → (b[0] = 0x4E ∧ b[1] = 0x45 ∧ b[2] = 0x53 ∧ b[3] = 0x1A) → 16 + trn + prg + chr ≤ s.fileLen.toInt →
      exec .hdrDec s = .next { s with answer := some (.ok (.hdrDec
        { trainerStart := 16, trainerSize := BitVec.ofInt 32 trn, prgStart := BitVec.ofInt 32 (16 + trn),
          prgSize := BitVec.ofInt 32 prg, chrStart := BitVec.ofInt 32 (16 + trn + prg), chrSize := BitVec.ofInt 32 chr,
          mapper := BitVec.ofInt 32 mapper, mirr := mirr, xram := decide (b[6].toNat / 2 % 2 = 1) })) })

/-- R23 (derived there): what every decoded header satisfies, as exact integers on the ports, `FILELEN` among them. `TRAINERSTART` 16 is the spec's
decision D10, the bound by `FILELEN` rests on its decision D9, and that the mirroring code is not 3 is R17 and R50 with its decision D5. -/
def Obligations.DecodedHeaderIsConsistent : Prop :=
  ∀ (s t : State) (h : Header), exec .hdrDec s = .next t → t.answer = some (.ok (.hdrDec h)) →
    h.inRange ∧ 16 + h.trainerSize.toInt + h.prgSize.toInt + h.chrSize.toInt ≤ s.fileLen.toInt

/-- R51, R65 on decode: bytes 8 to 15 and byte 7 bits 3:0 change no result. -/
def Obligations.ReservedHeaderBitsIgnored : Prop :=
  ∀ (s : State) (other : Vector Byte 16),
    (∀ i : Fin 16, i.val < 7 → other[i] = s.hdrBuf[i]) → other[7].toNat / 16 = s.hdrBuf[7].toNat / 16 →
    ∃ a : Answer, exec .hdrDec s = .next { s with answer := some a } ∧
      exec .hdrDec { s with hdrBuf := other } = .next { s with hdrBuf := other, answer := some a }

/-- HDR.ENC whole (R68, R69, R71): `MIRR` 3 refused, the three errors in their order, the sixteen bytes. The mirroring codes, bit 0 of byte 6 for
four-screen, byte 7's low bits and the order of the errors are the spec's decisions D5 to D8. -/
def Obligations.HdrEncSteps : Prop :=
  ∀ (s : State),
    (s.mirr = 3 → exec .hdrEnc s = .refused .mirrCodeReserved) ∧
    (s.mirr ≠ 3 → (¬ ∃ u : Nat, 1 ≤ u ∧ u ≤ 256 ∧ s.prgSize.toInt = u * 16384) →
      exec .hdrEnc s = .next { s with answer := some (.error .invalidPrgSize) }) ∧
    (s.mirr ≠ 3 → ∀ u : Nat, 1 ≤ u → u ≤ 256 → s.prgSize.toInt = u * 16384 →
      ((¬ ∃ c : Nat, c ≤ 255 ∧ s.chrSize.toInt = c * 8192) →
        exec .hdrEnc s = .next { s with answer := some (.error .invalidChrSize) }) ∧
      (∀ c : Nat, c ≤ 255 → s.chrSize.toInt = c * 8192 →
        ((¬ ∃ m : Nat, m ≤ 255 ∧ s.mapper.toInt = m) →
          exec .hdrEnc s = .next { s with answer := some (.error .invalidMapper) }) ∧
        (∀ m : Nat, m ≤ 255 → s.mapper.toInt = m →
          exec .hdrEnc s = .next { s with answer := some (.ok (.hdrEnc
            #v[0x4E, 0x45, 0x53, 0x1A, BitVec.ofNat 8 (u % 256), BitVec.ofNat 8 c,
               BitVec.ofNat 8 (m % 16 * 16 + (if s.mirr = 2 then 8 else 0) + (if s.xram then 2 else 0) + (if s.mirr = 1 then 1 else 0)),
               BitVec.ofNat 8 (m / 16 * 16), 0, 0, 0, 0, 0, 0, 0, 0])) })))

/-- R70 (a): decoding the bytes HDR.ENC produced recovers its five operands exactly, the 256-unit wraparound included. That `TRAINERSTART` is 16
is not R70's but R67's, the spec's decision D10 (log 13). -/
def Obligations.HeaderDecodeInvertsEncode : Prop :=
  ∀ (s t u : State) (hdr : Vector Byte 16),
    exec .hdrEnc s = .next t → t.answer = some (.ok (.hdrEnc hdr)) →
    u.hdrBuf = hdr → 16 ≤ u.avail.toInt → 16 + s.prgSize.toInt + s.chrSize.toInt ≤ u.fileLen.toInt →
    exec .hdrDec u = .next { u with answer := some (.ok (.hdrDec
      { trainerStart := 16, trainerSize := 0, prgStart := 16, prgSize := s.prgSize, chrStart := 16 + s.prgSize, chrSize := s.chrSize,
        mapper := s.mapper, mirr := s.mirr, xram := s.xram })) }

/-- R70 (b): encoding what HDR.DEC returned always completes, and reproduces the original bytes exactly when they are canonical. Which bytes those
are rests on HDR.ENC's zeros in bit 0 of byte 6 for four-screen and in byte 7 bits 3:0, the spec's decisions D6 and D7 (U14; log 13). -/
def Obligations.HeaderReencodingIsExactOnCanonical : Prop :=
  ∀ (s t u : State) (h : Header),
    exec .hdrDec s = .next t → t.answer = some (.ok (.hdrDec h)) →
    u.prgSize = h.prgSize → u.chrSize = h.chrSize → u.mapper = h.mapper → u.mirr = h.mirr → u.xram = h.xram →
    ∃ hdr : Vector Byte 16, exec .hdrEnc u = .next { u with answer := some (.ok (.hdrEnc hdr)) } ∧
      (hdr = s.hdrBuf ↔ canonicalHeader s.hdrBuf)

/-- R45 to R49, each field in both directions: `prgSize` with its wraparound and no encoding of 0, `chrSize` with none of 256 units, the trainer
bit, the extra-RAM bit, and `mapper` from its two nibbles; every multiple R45 and R46 name is the size of some header. That a size with no
encoding is answered with `InvalidPrgSize` or `InvalidChrSize` is R68, and that this is so whatever the later operands hold is its order of tests,
the spec's decision D8 (log 13). -/
def Obligations.HeaderFieldsBothWays : Prop :=
  (∀ (s t : State) (h : Header), exec .hdrDec s = .next t → t.answer = some (.ok (.hdrDec h)) →
    h.prgSize.toInt = (if s.hdrBuf[4].toNat = 0 then 256 else s.hdrBuf[4].toNat : Nat) * 16384 ∧
    h.chrSize.toInt = (s.hdrBuf[5].toNat : Int) * 8192 ∧
    h.trainerSize.toInt = (if s.hdrBuf[6].toNat / 4 % 2 = 1 then 512 else 0) ∧
    (h.xram = true ↔ s.hdrBuf[6].toNat / 2 % 2 = 1) ∧
    h.mapper.toInt = (s.hdrBuf[7].toNat / 16 : Nat) * 16 + (s.hdrBuf[6].toNat / 16 : Nat)) ∧
  (∀ (s t : State) (hdr : Vector Byte 16), exec .hdrEnc s = .next t → t.answer = some (.ok (.hdrEnc hdr)) →
    (hdr[4].toNat : Int) = s.prgSize.toInt / 16384 % 256 ∧ (hdr[5].toNat : Int) = s.chrSize.toInt / 8192 ∧
    hdr[6].toNat / 4 % 2 = 0 ∧ (s.xram = true ↔ hdr[6].toNat / 2 % 2 = 1) ∧
    (hdr[6].toNat / 16 : Nat) = s.mapper.toInt % 16 ∧ (hdr[7].toNat / 16 : Nat) = s.mapper.toInt / 16) ∧
  (∀ s t : State, exec .hdrEnc s = .next t → (s.prgSize.toInt = 0 → t.answer = some (.error .invalidPrgSize)) ∧
    (LegalPrgSize s.prgSize.toInt → s.chrSize.toInt = 256 * 8192 → t.answer = some (.error .invalidChrSize))) ∧
  (∀ u c : Nat, 1 ≤ u → u ≤ 256 → c ≤ 255 → ∃ (s t : State) (h : Header), exec .hdrDec s = .next t ∧ t.answer = some (.ok (.hdrDec h)) ∧
    h.prgSize.toInt = u * 16384 ∧ h.chrSize.toInt = c * 8192)

/-! ### The bank-size table -/

/-- BANK.MIN (R73): the table's size with flag 0, or 8192 with flag 1; it completes for every `MAPPER`. The table is any one
in the canonical form of log 1, with keys in 0 to 255 (the spec's decision D11). -/
def Obligations.BankMinAnswers : Prop :=
  ∀ s : State, mapperTableWf s.mapperTable →
    (∀ (k : Fin 256) (b : BankSize), (k, b) ∈ s.mapperTable → s.mapper.toInt = k.val →
      exec .bankMin s = .next { s with answer := some (.ok (.bankMin
        (match b with | .kib8 => 8192 | .kib16 => 16384 | .kib32 => 32768) false)) }) ∧
    ((∀ e ∈ s.mapperTable, s.mapper.toInt ≠ e.1.val) →
      exec .bankMin s = .next { s with answer := some (.ok (.bankMin 8192 true)) })

/-- BANK.MINC (R75): the plain minimum of the lookup's size and `PRGSIZE`, with the lookup's flag (the spec's decision D12). -/
def Obligations.BankMincAnswers : Prop :=
  ∀ s : State, mapperTableWf s.mapperTable →
    (∀ (k : Fin 256) (b : BankSize) (z : Int), (k, b) ∈ s.mapperTable → s.mapper.toInt = k.val →
      z = (match b with | .kib8 => 8192 | .kib16 => 16384 | .kib32 => 32768) →
      exec .bankMinc s = .next { s with answer := some (.ok (.bankMinc (if s.prgSize.toInt ≤ z then s.prgSize else BitVec.ofInt 32 z) false)) }) ∧
    ((∀ e ∈ s.mapperTable, s.mapper.toInt ≠ e.1.val) →
      exec .bankMinc s = .next { s with answer := some (.ok (.bankMinc (if s.prgSize.toInt ≤ 8192 then s.prgSize else 8192) true)) })

/-- BANK.ISSW (R76): `PRGSIZE` strictly greater than the unclamped size, with the lookup's flag (the spec's decision D12). -/
def Obligations.BankIsswAnswers : Prop :=
  ∀ s : State, mapperTableWf s.mapperTable →
    (∀ (k : Fin 256) (b : BankSize) (z : Int), (k, b) ∈ s.mapperTable → s.mapper.toInt = k.val →
      z = (match b with | .kib8 => 8192 | .kib16 => 16384 | .kib32 => 32768) →
      exec .bankIssw s = .next { s with answer := some (.ok (.bankIssw (decide (z < s.prgSize.toInt)) false)) }) ∧
    ((∀ e ∈ s.mapperTable, s.mapper.toInt ≠ e.1.val) →
      exec .bankIssw s = .next { s with answer := some (.ok (.bankIssw (decide (8192 < s.prgSize.toInt)) true)) })

/-- R103: the warning flag exists exactly on the three table operations, is 1 exactly when the mapper is no key, and stands beside `OK` and,
on BANK.MIN, the value 8192. For BANK.MINC and BANK.ISSW the flag is the spec's decision D12. -/
def Obligations.UnknownFlagIsTheWarning : Prop :=
  ∀ (i : Instr) (s t : State) (a : Answer), exec i s = .next t → t.answer = some a →
    ((a.unknown ≠ none) ↔ (i = .bankMin ∨ i = .bankMinc ∨ i = .bankIssw)) ∧
    (∀ f : Bool, a.unknown = some f → a.statusCode = 0 ∧ (f = true ↔ ∀ e ∈ s.mapperTable, s.mapper.toInt ≠ e.1.val)) ∧
    (∀ z : IntPort, a = .ok (.bankMin z true) → z = 8192)

/-- A mapper number outside 0 to 255, such as 9999, is unknown under every table: the fallback 8192 and the flag (R72; that keys lie in 0 to 255
is the spec's decision D11). -/
def Obligations.NumbersBeyondTheHeaderAreUnknown : Prop :=
  ∀ s : State, (s.mapper.toInt < 0 ∨ 255 < s.mapper.toInt) →
    exec .bankMin s = .next { s with answer := some (.ok (.bankMin 8192 true)) }

/-! ### The address translator -/

/-- R77, R80 (the spec's decision D14): every operand outside the translator's domain is rejected with `AddressOutOfRange`. -/
def Obligations.TranslatorRejectsOutsideDomain : Prop :=
  ∀ s : State,
    ((s.bankSize.toInt ∉ [8192, 16384, 32768] ∨ s.prgAddr.toInt < 0) →
      exec .bankP2c s = .next { s with answer := some (.error .addressOutOfRange) }) ∧
    ((s.bankSize.toInt ∉ [8192, 16384, 32768] ∨ s.cpuAddr.toInt < 0x8000 ∨ 0xFFFF < s.cpuAddr.toInt) →
      exec .bankC2p s = .next { s with answer := some (.error .addressOutOfRange) } ∧
      exec .bankC2pf s = .next { s with answer := some (.error .addressOutOfRange) })

/-- BANK.P2C on its domain (R78, R79; `k` from 0 on is the spec's decision D13): exactly the addresses `0x8000 + k*BANKSIZE + offset` below 0x10000, ascending, `32768 / BANKSIZE` of them. -/
def Obligations.BankP2cAnswers : Prop :=
  ∀ (s : State) (b : Int), s.bankSize.toInt = b → b ∈ [8192, 16384, 32768] → 0 ≤ s.prgAddr.toInt →
    ∃ l : List IntPort, exec .bankP2c s = .next { s with answer := some (.ok (.bankP2c l)) } ∧
      (∀ a : IntPort, a ∈ l ↔ ∃ k : Nat, a.toInt = 0x8000 + k * b + s.prgAddr.toInt % b ∧ a.toInt < 0x10000) ∧
      ascending l ∧ (l.length : Int) = 32768 / b

/-- BANK.C2P on its domain (R81, R82; decision D13): exactly the offsets `offset + k*BANKSIZE` below `PRGSIZE`, ascending, `ceil((PRGSIZE − offset) / BANKSIZE)` of
them, none when `PRGSIZE ≤ offset`. -/
def Obligations.BankC2pAnswers : Prop :=
  ∀ (s : State) (b : Int), s.bankSize.toInt = b → b ∈ [8192, 16384, 32768] → 0x8000 ≤ s.cpuAddr.toInt → s.cpuAddr.toInt ≤ 0xFFFF →
    ∃ l : List IntPort, exec .bankC2p s = .next { s with answer := some (.ok (.bankC2p l)) } ∧
      (∀ p : IntPort, p ∈ l ↔ ∃ k : Nat, p.toInt = s.cpuAddr.toInt % b + k * b ∧ p.toInt < s.prgSize.toInt) ∧
      ascending l ∧
      (l.length : Int) = if s.prgSize.toInt ≤ s.cpuAddr.toInt % b then 0 else (s.prgSize.toInt - s.cpuAddr.toInt % b + b - 1) / b

/-- BANK.C2PF with a buffer of at least `PRGSIZE` bytes: BANK.C2P's sequence, in its order, cut down to the offsets whose byte is `COMPARE`;
outside the domain `AddressOutOfRange` (R84; the spec's decisions D14 and D15). -/
def Obligations.BankC2pfAnswers : Prop :=
  ∀ s : State,
    ((s.bankSize.toInt ∉ [8192, 16384, 32768] ∨ s.cpuAddr.toInt < 0x8000 ∨ 0xFFFF < s.cpuAddr.toInt) →
      exec .bankC2pf s = .next { s with answer := some (.error .addressOutOfRange) }) ∧
    (s.bankSize.toInt ∈ [8192, 16384, 32768] → 0x8000 ≤ s.cpuAddr.toInt → s.cpuAddr.toInt ≤ 0xFFFF → s.prgSize.toInt ≤ s.prg.size →
      ∃ l : List IntPort, exec .bankC2p s = .next { s with answer := some (.ok (.bankC2p l)) } ∧
        exec .bankC2pf s = .next { s with answer := some (.ok (.bankC2pf
          (l.filter fun p => memRead .prg p.toInt.toNat s == some s.compareByte))) })

/-- BANK.C2PF is refused exactly on the translator's domain (the spec's decision D14) with a `PRG` buffer shorter than `PRGSIZE` (R84, U11), also where the buffer
holds every candidate byte; outside the domain it answers its error whatever the buffer (log 7). -/
def Obligations.BankC2pfRefusesShortBuffer : Prop :=
  ∀ s : State, exec .bankC2pf s = .refused .prgBufferShort ↔
    s.bankSize.toInt ∈ [8192, 16384, 32768] ∧ 0x8000 ≤ s.cpuAddr.toInt ∧ s.cpuAddr.toInt ≤ 0xFFFF ∧ (s.prg.size : Int) < s.prgSize.toInt

/-- R83: every CPU address BANK.P2C gives for a PRG offset below `PRGSIZE` leads BANK.C2P back to that offset. -/
def Obligations.TranslationInverse : Prop :=
  ∀ (s t u : State) (l : List IntPort), exec .bankP2c s = .next t → t.answer = some (.ok (.bankP2c l)) →
    u.cpuAddr ∈ l → u.bankSize = s.bankSize → s.prgAddr.toInt < u.prgSize.toInt →
    ∃ m : List IntPort, exec .bankC2p u = .next { u with answer := some (.ok (.bankC2p m)) } ∧ s.prgAddr ∈ m

/-- R40: both directions answer by one relation: `a` and `p` correspond exactly when `a` lies in the window and `a mod b = p mod b`. -/
def Obligations.TranslationIsOneRelation : Prop :=
  ∀ (s t u v : State) (l m : List IntPort),
    exec .bankP2c s = .next t → t.answer = some (.ok (.bankP2c l)) →
    exec .bankC2p u = .next v → v.answer = some (.ok (.bankC2p m)) →
    u.bankSize = s.bankSize → s.prgAddr.toInt < u.prgSize.toInt →
    (u.cpuAddr ∈ l ↔ u.cpuAddr.toInt % s.bankSize.toInt = s.prgAddr.toInt % s.bankSize.toInt) ∧
    (s.prgAddr ∈ m ↔ u.cpuAddr.toInt % s.bankSize.toInt = s.prgAddr.toInt % s.bankSize.toInt)

/-- R74: with a smaller bank size the answers only grow: every candidate for `2b` is a candidate for `b`. -/
def Obligations.SmallerBankGivesSuperset : Prop :=
  ∀ (s u : State) (b : Int), (b = 8192 ∨ b = 16384) → s.bankSize.toInt = b → u.bankSize.toInt = 2 * b →
    (∀ (t v : State) (l m : List IntPort), s.prgAddr = u.prgAddr →
      exec .bankP2c s = .next t → t.answer = some (.ok (.bankP2c l)) → exec .bankP2c u = .next v → v.answer = some (.ok (.bankP2c m)) → m ⊆ l) ∧
    (∀ (t v : State) (l m : List IntPort), s.cpuAddr = u.cpuAddr → s.prgSize = u.prgSize →
      exec .bankC2p s = .next t → t.answer = some (.ok (.bankC2p l)) → exec .bankC2p u = .next v → v.answer = some (.ok (.bankC2p m)) → m ⊆ l)

/-! ### The Game Genie cipher -/

/-- GG.DEC's one error (R87; the character set and the length operand are the spec's decisions D16 and D17): a length other than 6 or 8, or one of the first `LEN` characters that spells no letter of the alphabet. -/
def Obligations.GgDecRejects : Prop :=
  ∀ s : State,
    (s.len.toInt ≠ 6 ∧ s.len.toInt ≠ 8) ∨
      ((s.len.toInt = 6 ∨ s.len.toInt = 8) ∧ ∃ i : Fin 8, (i.val : Int) < s.len.toInt ∧ ∀ v : Nibble, ¬ SpellsLetter s.code[i] v) →
    exec .ggDec s = .next { s with answer := some (.error .invalidCode) }

/-- R55 (derived there from R88, R89), bit by bit: what a six-letter code decodes to; characters beyond the sixth do not matter (D17). -/
def Obligations.GgDecSixLetterLayout : Prop :=
  ∀ (s : State) (n0 n1 n2 n3 n4 n5 : Nibble), s.len.toInt = 6 →
    SpellsLetter s.code[0] n0 → SpellsLetter s.code[1] n1 → SpellsLetter s.code[2] n2 →
    SpellsLetter s.code[3] n3 → SpellsLetter s.code[4] n4 → SpellsLetter s.code[5] n5 →
    exec .ggDec s = .next { s with answer := some (.ok (.ggDec (.sixLetter
      (BitVec.ofNat 32 (0x8000 + n3.toNat % 8 * 0x1000 + n4.toNat / 8 * 0x800 + n5.toNat % 8 * 0x100 +
        n1.toNat / 8 * 0x80 + n2.toNat % 8 * 0x10 + n3.toNat / 8 * 8 + n4.toNat % 8))
      (BitVec.ofNat 32 (n0.toNat / 8 * 0x80 + n1.toNat % 8 * 0x10 + n5.toNat / 8 * 8 + n0.toNat % 8))))) }

/-- R56 (derived there from R88, R89), bit by bit: what an eight-letter code decodes to. -/
def Obligations.GgDecEightLetterLayout : Prop :=
  ∀ (s : State) (n0 n1 n2 n3 n4 n5 n6 n7 : Nibble), s.len.toInt = 8 →
    SpellsLetter s.code[0] n0 → SpellsLetter s.code[1] n1 → SpellsLetter s.code[2] n2 → SpellsLetter s.code[3] n3 →
    SpellsLetter s.code[4] n4 → SpellsLetter s.code[5] n5 → SpellsLetter s.code[6] n6 → SpellsLetter s.code[7] n7 →
    exec .ggDec s = .next { s with answer := some (.ok (.ggDec (.eightLetter
      (BitVec.ofNat 32 (0x8000 + n3.toNat % 8 * 0x1000 + n4.toNat / 8 * 0x800 + n5.toNat % 8 * 0x100 +
        n1.toNat / 8 * 0x80 + n2.toNat % 8 * 0x10 + n3.toNat / 8 * 8 + n4.toNat % 8))
      (BitVec.ofNat 32 (n0.toNat / 8 * 0x80 + n1.toNat % 8 * 0x10 + n7.toNat / 8 * 8 + n0.toNat % 8))
      (BitVec.ofNat 32 (n6.toNat / 8 * 0x80 + n7.toNat % 8 * 0x10 + n5.toNat / 8 * 8 + n6.toNat % 8))))) }

/-- R91: GG.ENC's one error; an absent compare value is not examined (the spec's decision D18). -/
def Obligations.GgEncRejects : Prop :=
  ∀ s : State,
    (¬ (0 ≤ s.address.toInt ∧ s.address.toInt ≤ 0xFFFF) ∨ ¬ (0 ≤ s.replacement.toInt ∧ s.replacement.toInt ≤ 255) ∨
      (s.hasCmp = true ∧ ¬ (0 ≤ s.compareInt.toInt ∧ s.compareInt.toInt ≤ 255))) →
    exec .ggEnc s = .next { s with answer := some (.error .invalidArgument) }

/-- R92, R93, R94 for six letters: which operand bits each letter carries, in upper case (the spec's decision D19); the address's bit 15 reaches
none, whatever `COMPARE` holds (D18). -/
def Obligations.GgEncSixLetters : Prop :=
  ∀ (s : State) (a : BitVec 16) (r : Byte), s.address.toInt = a.toNat → s.replacement.toInt = r.toNat → s.hasCmp = false →
    ∃ c0 c1 c2 c3 c4 c5 : Byte, exec .ggEnc s = .next { s with answer := some (.ok (.ggEnc [c0, c1, c2, c3, c4, c5])) } ∧
      IsUpperLetter c0 (BitVec.ofNat 4 (r.toNat / 0x80 % 2 * 8 + r.toNat % 8)) ∧
      IsUpperLetter c1 (BitVec.ofNat 4 (a.toNat / 0x80 % 2 * 8 + r.toNat / 0x10 % 8)) ∧
      IsUpperLetter c2 (BitVec.ofNat 4 (a.toNat / 0x10 % 8)) ∧
      IsUpperLetter c3 (BitVec.ofNat 4 (a.toNat / 8 % 2 * 8 + a.toNat / 0x1000 % 8)) ∧
      IsUpperLetter c4 (BitVec.ofNat 4 (a.toNat / 0x800 % 2 * 8 + a.toNat % 8)) ∧
      IsUpperLetter c5 (BitVec.ofNat 4 (r.toNat / 8 % 2 * 8 + a.toNat / 0x100 % 8))

/-- R92, R93, R94 for eight letters; bit 3 of the third letter is 1. -/
def Obligations.GgEncEightLetters : Prop :=
  ∀ (s : State) (a : BitVec 16) (r d : Byte), s.address.toInt = a.toNat → s.replacement.toInt = r.toNat → s.hasCmp = true →
    s.compareInt.toInt = d.toNat →
    ∃ c0 c1 c2 c3 c4 c5 c6 c7 : Byte,
      exec .ggEnc s = .next { s with answer := some (.ok (.ggEnc [c0, c1, c2, c3, c4, c5, c6, c7])) } ∧
      IsUpperLetter c0 (BitVec.ofNat 4 (r.toNat / 0x80 % 2 * 8 + r.toNat % 8)) ∧
      IsUpperLetter c1 (BitVec.ofNat 4 (a.toNat / 0x80 % 2 * 8 + r.toNat / 0x10 % 8)) ∧
      IsUpperLetter c2 (BitVec.ofNat 4 (8 + a.toNat / 0x10 % 8)) ∧
      IsUpperLetter c3 (BitVec.ofNat 4 (a.toNat / 8 % 2 * 8 + a.toNat / 0x1000 % 8)) ∧
      IsUpperLetter c4 (BitVec.ofNat 4 (a.toNat / 0x800 % 2 * 8 + a.toNat % 8)) ∧
      IsUpperLetter c5 (BitVec.ofNat 4 (d.toNat / 8 % 2 * 8 + a.toNat / 0x100 % 8)) ∧
      IsUpperLetter c6 (BitVec.ofNat 4 (d.toNat / 0x80 % 2 * 8 + d.toNat % 8)) ∧
      IsUpperLetter c7 (BitVec.ofNat 4 (r.toNat / 8 % 2 * 8 + d.toNat / 0x10 % 8))

/-- R94: the third letter lies in one subset for every six-letter result and in the other for every eight-letter result. That the letters are
upper-case ASCII is the spec's decisions D16 and D19. -/
def Obligations.GgEncThirdLetterShowsLength : Prop :=
  ∀ (s t : State) (out : List Byte), exec .ggEnc s = .next t → t.answer = some (.ok (.ggEnc out)) →
    (s.hasCmp = false → out.length = 6 ∧ ∃ x ∈ lowLetters, out[2]? = some x) ∧
    (s.hasCmp = true → out.length = 8 ∧ ∃ x ∈ highLetters, out[2]? = some x)

/-- R95 (d) from triples: decoding an encoded triple gives the triple back, with the address's bit 15 set. -/
def Obligations.GgDecodeInvertsEncode : Prop :=
  ∀ (s t u : State) (out : List Byte), exec .ggEnc s = .next t → t.answer = some (.ok (.ggEnc out)) →
    u.len.toInt = out.length → (∀ i : Fin 8, i.val < out.length → out[i.val]? = some u.code[i]) →
    exec .ggDec u = .next { u with answer := some (.ok (.ggDec
      (if s.hasCmp then .eightLetter (s.address ||| 0x8000) s.replacement s.compareInt
       else .sixLetter (s.address ||| 0x8000) s.replacement))) }

/-- R95 (a): two codes of one length decode to one triple exactly when their letters agree in everything but bit 3 of the third. -/
def Obligations.GgOneDontCareBit : Prop :=
  ∀ (len : Int) (code other : Vector Byte 8) (m n : Fin 8 → Nibble), (len = 6 ∨ len = 8) →
    (∀ i : Fin 8, (i.val : Int) < len → SpellsLetter code[i] (m i) ∧ SpellsLetter other[i] (n i)) →
    (decodeCode len code = decodeCode len other ↔
      ∀ i : Fin 8, (i.val : Int) < len → if i = 2 then (m i).extractLsb' 0 3 = (n i).extractLsb' 0 3 else m i = n i)

/-- R95 (c): canonicalisation (GG.CANON, R62) succeeds on every code GG.DEC accepts, keeps its length, and is idempotent. -/
def Obligations.GgCanonicalFormIsIdempotent : Prop :=
  ∀ (len : Int) (code : Vector Byte 8) (t : Triple), decodeCode len code = .ok t →
    ∃ out : List Byte, canonicalCode len code = .ok out ∧ (out.length : Int) = len ∧
      ∀ again : Vector Byte 8, (∀ i : Fin 8, i.val < out.length → out[i.val]? = some again[i]) →
        decodeCode len again = .ok t ∧ canonicalCode len again = .ok out

/-! ### The tile bitplane codec -/

/-- TILE.DEC (R97), for every operand: pixel `i` takes its high bit from bit `7 − i` of the high plane and its low bit from bit `7 − i` of the low plane. -/
def Obligations.TileDecAnswers : Prop :=
  ∀ s : State, ∃ px : Vector Pixel 8, exec .tileDec s = .next { s with answer := some (.ok (.tileDec px)) } ∧
    ∀ i : Fin 8, px[i].toNat = s.hi.toNat / 2 ^ (7 - i.val) % 2 * 2 + s.lo.toNat / 2 ^ (7 - i.val) % 2

/-- TILE.ENC (R99; that a pixel port has two bits is the spec's decision D20): bit `7 − i` of each plane is that bit of pixel `i`. -/
def Obligations.TileEncAnswers : Prop :=
  ∀ s : State, ∃ lo hi : Byte, exec .tileEnc s = .next { s with answer := some (.ok (.tileEnc lo hi)) } ∧
    ∀ i : Fin 8, lo.toNat / 2 ^ (7 - i.val) % 2 = s.px[i].toNat % 2 ∧ hi.toNat / 2 ^ (7 - i.val) % 2 = s.px[i].toNat / 2

/-- R100: encoding a decoded slice gives its two bytes back, and decoding an encoded row gives its pixels back. -/
def Obligations.TileCodecInverse : Prop :=
  (∀ (s t u : State) (px : Vector Pixel 8), exec .tileDec s = .next t → t.answer = some (.ok (.tileDec px)) → u.px = px →
    exec .tileEnc u = .next { u with answer := some (.ok (.tileEnc s.lo s.hi)) }) ∧
  (∀ (s t u : State) (lo hi : Byte), exec .tileEnc s = .next t → t.answer = some (.ok (.tileEnc lo hi)) → u.lo = lo → u.hi = hi →
    exec .tileDec u = .next { u with answer := some (.ok (.tileDec s.px)) })

/-- R98: decoding is a bijection from byte pairs onto pixel rows; swapping the planes swaps pixel values 1 and 2 and leaves 0 and 3; a zero
high plane gives the bits of the low plane from bit 7 to bit 0. -/
def Obligations.TileDecodeProperties : Prop :=
  (∀ (s t u v : State) (px : Vector Pixel 8), exec .tileDec s = .next t → t.answer = some (.ok (.tileDec px)) →
    exec .tileDec u = .next v → v.answer = some (.ok (.tileDec px)) → s.lo = u.lo ∧ s.hi = u.hi) ∧
  (∀ px : Vector Pixel 8, ∃ lo hi : Byte, ∀ s : State, s.lo = lo → s.hi = hi →
    exec .tileDec s = .next { s with answer := some (.ok (.tileDec px)) }) ∧
  (∀ (s t u v : State) (px qx : Vector Pixel 8), exec .tileDec s = .next t → t.answer = some (.ok (.tileDec px)) →
    u.lo = s.hi → u.hi = s.lo → exec .tileDec u = .next v → v.answer = some (.ok (.tileDec qx)) →
    ∀ i : Fin 8, qx[i] = if px[i] = 1 then 2 else if px[i] = 2 then 1 else px[i]) ∧
  (∀ (s t : State) (px : Vector Pixel 8), exec .tileDec s = .next t → t.answer = some (.ok (.tileDec px)) → s.hi = 0 →
    ∀ i : Fin 8, px[i].toNat = s.lo.toNat / 2 ^ (7 - i.val) % 2)
end

