-- ==== Sys2Proof/Laws/State.lean ====
section
/-! SUPPORT. One lemma per field per update of the state: `setAnswer` changes the answer and nothing else, `withFetchWord` the operation
select and nothing else. -/

namespace Sys2Proof.Machine

open Sys2Proof

section SetAnswer
variable (s : State) (a b : Answer)
@[simp] theorem setAnswer_op : (s.setAnswer a).op = s.op := rfl
@[simp] theorem setAnswer_avail : (s.setAnswer a).avail = s.avail := rfl
@[simp] theorem setAnswer_fileLen : (s.setAnswer a).fileLen = s.fileLen := rfl
@[simp] theorem setAnswer_prgSize : (s.setAnswer a).prgSize = s.prgSize := rfl
@[simp] theorem setAnswer_chrSize : (s.setAnswer a).chrSize = s.chrSize := rfl
@[simp] theorem setAnswer_mapper : (s.setAnswer a).mapper = s.mapper := rfl
@[simp] theorem setAnswer_mirr : (s.setAnswer a).mirr = s.mirr := rfl
@[simp] theorem setAnswer_xram : (s.setAnswer a).xram = s.xram := rfl
@[simp] theorem setAnswer_prgAddr : (s.setAnswer a).prgAddr = s.prgAddr := rfl
@[simp] theorem setAnswer_bankSize : (s.setAnswer a).bankSize = s.bankSize := rfl
@[simp] theorem setAnswer_cpuAddr : (s.setAnswer a).cpuAddr = s.cpuAddr := rfl
@[simp] theorem setAnswer_compareByte : (s.setAnswer a).compareByte = s.compareByte := rfl
@[simp] theorem setAnswer_len : (s.setAnswer a).len = s.len := rfl
@[simp] theorem setAnswer_code : (s.setAnswer a).code = s.code := rfl
@[simp] theorem setAnswer_address : (s.setAnswer a).address = s.address := rfl
@[simp] theorem setAnswer_replacement : (s.setAnswer a).replacement = s.replacement := rfl
@[simp] theorem setAnswer_hasCmp : (s.setAnswer a).hasCmp = s.hasCmp := rfl
@[simp] theorem setAnswer_compareInt : (s.setAnswer a).compareInt = s.compareInt := rfl
@[simp] theorem setAnswer_lo : (s.setAnswer a).lo = s.lo := rfl
@[simp] theorem setAnswer_hi : (s.setAnswer a).hi = s.hi := rfl
@[simp] theorem setAnswer_px : (s.setAnswer a).px = s.px := rfl
@[simp] theorem setAnswer_hdrBuf : (s.setAnswer a).hdrBuf = s.hdrBuf := rfl
@[simp] theorem setAnswer_prg : (s.setAnswer a).prg = s.prg := rfl
@[simp] theorem setAnswer_mapperTable : (s.setAnswer a).mapperTable = s.mapperTable := rfl
@[simp] theorem setAnswer_answer : (s.setAnswer a).answer = some a := rfl
@[simp] theorem setAnswer_setAnswer : (s.setAnswer a).setAnswer b = s.setAnswer b := rfl
@[simp] theorem memRead_setAnswer (sp : Space) (x : Nat) : memRead sp x (s.setAnswer a) = memRead sp x s := rfl
@[simp] theorem readHeader_setAnswer : readHeader (s.setAnswer a) = readHeader s := rfl
@[simp] theorem fetch_setAnswer : fetch (s.setAnswer a) = fetch s := rfl
@[simp] theorem compareOperand_setAnswer : compareOperand (s.setAnswer a) = compareOperand s := rfl
end SetAnswer

section WithFetchWord
variable (s : State) (n w : Nat)
@[simp] theorem withFetchWord_op : (s.withFetchWord n w).op = BitVec.ofNat 4 w := rfl
@[simp] theorem withFetchWord_avail : (s.withFetchWord n w).avail = s.avail := rfl
@[simp] theorem withFetchWord_fileLen : (s.withFetchWord n w).fileLen = s.fileLen := rfl
@[simp] theorem withFetchWord_prgSize : (s.withFetchWord n w).prgSize = s.prgSize := rfl
@[simp] theorem withFetchWord_chrSize : (s.withFetchWord n w).chrSize = s.chrSize := rfl
@[simp] theorem withFetchWord_mapper : (s.withFetchWord n w).mapper = s.mapper := rfl
@[simp] theorem withFetchWord_mirr : (s.withFetchWord n w).mirr = s.mirr := rfl
@[simp] theorem withFetchWord_xram : (s.withFetchWord n w).xram = s.xram := rfl
@[simp] theorem withFetchWord_prgAddr : (s.withFetchWord n w).prgAddr = s.prgAddr := rfl
@[simp] theorem withFetchWord_bankSize : (s.withFetchWord n w).bankSize = s.bankSize := rfl
@[simp] theorem withFetchWord_cpuAddr : (s.withFetchWord n w).cpuAddr = s.cpuAddr := rfl
@[simp] theorem withFetchWord_compareByte : (s.withFetchWord n w).compareByte = s.compareByte := rfl
@[simp] theorem withFetchWord_len : (s.withFetchWord n w).len = s.len := rfl
@[simp] theorem withFetchWord_code : (s.withFetchWord n w).code = s.code := rfl
@[simp] theorem withFetchWord_address : (s.withFetchWord n w).address = s.address := rfl
@[simp] theorem withFetchWord_replacement : (s.withFetchWord n w).replacement = s.replacement := rfl
@[simp] theorem withFetchWord_hasCmp : (s.withFetchWord n w).hasCmp = s.hasCmp := rfl
@[simp] theorem withFetchWord_compareInt : (s.withFetchWord n w).compareInt = s.compareInt := rfl
@[simp] theorem withFetchWord_lo : (s.withFetchWord n w).lo = s.lo := rfl
@[simp] theorem withFetchWord_hi : (s.withFetchWord n w).hi = s.hi := rfl
@[simp] theorem withFetchWord_px : (s.withFetchWord n w).px = s.px := rfl
@[simp] theorem withFetchWord_hdrBuf : (s.withFetchWord n w).hdrBuf = s.hdrBuf := rfl
@[simp] theorem withFetchWord_prg : (s.withFetchWord n w).prg = s.prg := rfl
@[simp] theorem withFetchWord_mapperTable : (s.withFetchWord n w).mapperTable = s.mapperTable := rfl
@[simp] theorem withFetchWord_answer : (s.withFetchWord n w).answer = s.answer := rfl
end WithFetchWord

end Sys2Proof.Machine
end

