-- ==== Sys2Proof/Laws/Ops.lean ====
section
/-! SUPPORT. All that each shared operation can do: ending an operation, the byte buffers and their canonical form, the mapper lookup, the
translator's loop. -/

namespace Sys2Proof.Machine

open Sys2Proof

/-! ### Ending an operation -/

theorem raise_eq (e : ErrorKind) (s : State) : raise e s = .next { s with answer := some (.error e) } := rfl

theorem complete_eq (r : Result) (s : State) : complete r s = .next { s with answer := some (.ok r) } := rfl

/-- All that `raise` can do. -/
theorem raise_next {e : ErrorKind} {s t : State} (h : raise e s = .next t) : t = s.setAnswer (.error e) := by
  injection h with h; exact h.symm

/-- All that `complete` can do. -/
theorem complete_next {r : Result} {s t : State} (h : complete r s = .next t) : t = s.setAnswer (.ok r) := by
  injection h with h; exact h.symm

/-! ### Byte buffers -/

theorem lookup_none_of_lt {a : Nat} {l : List Host.Cell} (h : ∀ c ∈ l, a < c.1) : l.lookup a = none := by
  rw [List.lookup_eq_none_iff]
  intro c hc
  have := h c hc
  simp; omega

theorem lookup_setCell_same (a : Nat) (b : Byte) (l : List Host.Cell) (h : l.Pairwise fun x y => x.1 < y.1) :
    ((setCell a b l).lookup a).getD unlistedByte = b := by
  induction l with
  | nil => simp only [setCell]; split <;> simp_all
  | cons c rest ih =>
    obtain ⟨k, v⟩ := c
    rw [List.pairwise_cons] at h
    have hnone : a ≤ k → rest.lookup a = none := fun hak => lookup_none_of_lt fun c hc => Nat.lt_of_le_of_lt hak (h.1 c hc)
    simp only [setCell]
    split
    · rename_i hak
      have hne : (a == k) = false := by simp; omega
      split
      · rw [List.lookup_cons, hne, hnone (by omega)]; exact Eq.symm ‹b = unlistedByte›
      · simp
    · split
      · split
        · rw [hnone (by omega)]; exact Eq.symm ‹b = unlistedByte›
        · simp
      · rename_i h1 h2
        have hne : (a == k) = false := by simp; omega
        simp [List.lookup_cons, hne, ih h.2]

theorem lookup_setCell_other {a x : Nat} (b : Byte) (l : List Host.Cell) (hx : x ≠ a) :
    (setCell a b l).lookup x = l.lookup x := by
  have hx : (x == a) = false := beq_false_of_ne hx
  induction l with
  | nil => simp only [setCell]; split <;> simp [List.lookup_cons, hx]
  | cons c rest ih =>
    obtain ⟨k, v⟩ := c
    simp only [setCell]
    split
    · split <;> simp [List.lookup_cons, hx]
    · split
      · subst_vars
        split <;> simp [List.lookup_cons, hx]
      · simp only [List.lookup_cons, ih]

theorem setCell_mem {a : Nat} {b : Byte} {l : List Host.Cell} {c : Host.Cell} (h : c ∈ setCell a b l) :
    c ∈ l ∨ (c = (a, b) ∧ b ≠ unlistedByte) := by
  induction l with
  | nil => simp only [setCell] at h; split at h <;> simp_all
  | cons d rest ih =>
    obtain ⟨k, v⟩ := d
    simp only [setCell] at h
    split at h
    · split at h
      · exact .inl h
      · rcases List.mem_cons.1 h with rfl | h
        · exact .inr ⟨rfl, by assumption⟩
        · exact .inl h
    · split at h
      · split at h
        · exact .inl (List.mem_cons_of_mem _ h)
        · rcases List.mem_cons.1 h with rfl | h
          · exact .inr ⟨rfl, by assumption⟩
          · exact .inl (List.mem_cons_of_mem _ h)
      · rcases List.mem_cons.1 h with h | h
        · exact .inl (by simp [h])
        · rcases ih h with h | h
          · exact .inl (by simp [h])
          · exact .inr h

theorem setCell_rising (a : Nat) (b : Byte) (l : List Host.Cell) (h : l.Pairwise fun x y => x.1 < y.1) :
    (setCell a b l).Pairwise fun x y => x.1 < y.1 := by
  induction l with
  | nil => simp only [setCell]; split <;> simp
  | cons c rest ih =>
    obtain ⟨k, v⟩ := c
    have hp := h
    rw [List.pairwise_cons] at h
    simp only [setCell]
    split
    · rename_i hak
      split
      · exact hp
      · refine List.pairwise_cons.2 ⟨fun d hd => ?_, hp⟩
        rcases List.mem_cons.1 hd with rfl | hd
        · exact hak
        · exact Nat.lt_trans hak (h.1 d hd)
    · split
      · subst_vars
        split
        · exact h.2
        · exact List.pairwise_cons.2 ⟨fun d hd => h.1 d hd, h.2⟩
      · refine List.pairwise_cons.2 ⟨fun d hd => ?_, ih h.2⟩
        rcases setCell_mem hd with hd | ⟨rfl, -⟩
        · exact h.1 d hd
        · simp; omega

/-- A write keeps the canonical form. -/
theorem Memory.write_wf {m : Memory} (a : Nat) (b : Byte) (h : m.wf) : (m.write a b).wf := by
  unfold Memory.write
  split
  · refine ⟨setCell_rising a b _ h.1, fun c hc => ?_⟩
    rcases setCell_mem hc with hc | ⟨rfl, hb⟩
    · exact h.2 c hc
    · exact ⟨by assumption, hb⟩
  · exact h

theorem Memory.blank_wf (n : Nat) : (Memory.blank n).wf := ⟨List.Pairwise.nil, by simp [Memory.blank]⟩

@[simp] theorem Memory.write_size (m : Memory) (a : Nat) (b : Byte) : (m.write a b).size = m.size := by
  unfold Memory.write; split <;> rfl

/-- A read after a write to the same address gives the byte written. -/
theorem Memory.read_write_same {m : Memory} {a : Nat} (b : Byte) (h : m.wf) (ha : a < m.size) : (m.write a b).read a = some b := by
  simp [Memory.read, Memory.write, ha, lookup_setCell_same a b m.cells h.1]

/-- A write leaves every other address alone. -/
theorem Memory.read_write_other (m : Memory) {a x : Nat} (b : Byte) (hx : x ≠ a) : (m.write a b).read x = m.read x := by
  unfold Memory.read
  rw [Memory.write_size]
  unfold Memory.write
  split
  · split <;> simp [lookup_setCell_other b m.cells hx]
  · rfl

theorem Memory.read_blank (n x : Nat) : (Memory.blank n).read x = if x < n then some 0 else none := by
  simp only [Memory.read, Memory.blank, unlistedByte]; rfl

/-- Exactly the addresses below the size exist. -/
theorem Memory.read_isSome {m : Memory} {a : Nat} : (m.read a).isSome ↔ a < m.size := by
  unfold Memory.read; split <;> simp_all

theorem Memory.read_eq_none {m : Memory} {a : Nat} : m.read a = none ↔ m.size ≤ a := by
  unfold Memory.read; split <;> simp_all

theorem foldl_write_wf (l : List (Byte × Nat)) (m : Memory) (h : m.wf) : (l.foldl (fun m c => m.write c.2 c.1) m).wf := by
  induction l generalizing m with
  | nil => exact h
  | cons c l ih => exact ih _ (Memory.write_wf _ _ h)

theorem foldl_write_size (l : List (Byte × Nat)) (m : Memory) : (l.foldl (fun m c => m.write c.2 c.1) m).size = m.size := by
  induction l generalizing m with
  | nil => rfl
  | cons c l ih => simp [ih]

/-- A buffer bound from bytes is canonical. -/
theorem Memory.ofBytes_wf (bs : List Byte) : (Memory.ofBytes bs).wf := foldl_write_wf _ _ (Memory.blank_wf _)

theorem foldl_write_read (bs : List Byte) (k : Nat) (m : Memory) (h : m.wf) (hs : k + bs.length ≤ m.size) (x : Nat) :
    ((bs.zipIdx k).foldl (fun m c => m.write c.2 c.1) m).read x = if k ≤ x ∧ x < k + bs.length then bs[x - k]? else m.read x := by
  induction bs generalizing k m with
  | nil => simp
  | cons b bs ih =>
    simp only [List.zipIdx_cons, List.foldl_cons, List.length_cons] at hs ⊢
    rw [ih (k + 1) _ (Memory.write_wf _ _ h) (by simp; omega)]
    by_cases hx : x = k
    · subst hx
      simp [Memory.read_write_same b h (by omega : x < m.size)]
    · rw [Memory.read_write_other m b hx]
      by_cases hk : k ≤ x
      · obtain ⟨d, rfl⟩ : ∃ d, x = k + 1 + d := ⟨x - (k + 1), by omega⟩
        have e : k + 1 + d - k = d + 1 := by omega
        simp [e, show (k + 1 + d < k + 1 + bs.length) ↔ (k + 1 + d < k + (bs.length + 1)) by omega, show k ≤ k + 1 + d by omega]
      · rw [if_neg (by omega), if_neg (by omega)]

/-- Every content of a buffer can be bound, and reads back byte by byte. -/
theorem Memory.ofBytes_read (bs : List Byte) (x : Nat) : (Memory.ofBytes bs).read x = bs[x]? := by
  unfold Memory.ofBytes
  rw [foldl_write_read bs 0 _ (Memory.blank_wf _) (by simp [Memory.blank])]
  by_cases h : x < bs.length
  · simp [h]
  · simp [Memory.read_blank, h]

theorem memRead_hdrBuf (s : State) (i : Fin 16) : memRead .hdrBuf i s = some (readHeader s)[i] := by
  simp [memRead, readHeader]

/-! ### The mapper lookup -/

/-- A key's size, flag 0. -/
theorem lookupMapper_mem {t : MapperTable} (h : mapperTableWf t) {k : Fin 256} {b : BankSize} (hm : (k, b) ∈ t) :
    lookupMapper t k.val = (bankBytes b, false) := by
  have : t.find? (fun e => (e.1.val : Int) == (k.val : Int)) = some (k, b) := by
    induction t with
    | nil => simp at hm
    | cons e t ih =>
      rw [mapperTableWf, List.pairwise_cons] at h
      rcases List.mem_cons.1 hm with rfl | hm
      · simp
      · have hlt := h.1 _ hm
        have : e.1 ≠ k := fun he => by simp [he] at hlt
        have h2 : ((e.1.val : Int) == (k.val : Int)) = false := by
          simp; exact fun he => this (Fin.ext (by omega))
        simpa [h2] using ih h.2 hm
  simp [lookupMapper, this]

/-- No key: the fallback, flag 1. -/
theorem lookupMapper_absent {t : MapperTable} {m : Int} (h : ∀ e ∈ t, m ≠ e.1.val) : lookupMapper t m = (8192, true) := by
  have : t.find? (fun e => (e.1.val : Int) == m) = none := by
    simp only [List.find?_eq_none, beq_iff_eq]
    exact fun e he hh => h e he hh.symm
  simp [lookupMapper, this, unknownBank]

/-- The flag says exactly that the mapper is no key. -/
theorem lookupMapper_unknown {t : MapperTable} {m : Int} : (lookupMapper t m).2 = true ↔ ∀ e ∈ t, m ≠ e.1.val := by
  constructor
  · intro h e he hm
    unfold lookupMapper at h
    split at h
    · simp at h
    · rename_i hn
      rw [List.find?_eq_none] at hn
      exact hn e he (by simp [hm])
  · intro h; rw [lookupMapper_absent h]

theorem lookupMapper_size (t : MapperTable) (m : Int) :
    (lookupMapper t m).1 = 8192 ∨ (lookupMapper t m).1 = 16384 ∨ (lookupMapper t m).1 = 32768 := by
  unfold lookupMapper
  split
  · rename_i e _; cases h : e.2 <;> simp [bankBytes]
  · simp [unknownBank]

/-! ### The while loop of the translator -/

theorem mem_stepsBelow {n : Nat} {start step limit x : Int} (hs : 1 ≤ step) (hn : limit - start ≤ n) :
    x ∈ stepsBelow n start step limit ↔ ∃ k : Nat, x = start + k * step ∧ x < limit := by
  induction n generalizing start with
  | zero =>
    simp only [stepsBelow, List.not_mem_nil, false_iff, not_exists, not_and]
    intro k hk hl
    have : 0 ≤ (k : Int) * step := by positivity
    simp at hn; omega
  | succ n ih =>
    simp only [stepsBelow]
    split
    · rename_i hlt
      rw [List.mem_cons, ih (by push_cast at hn ⊢; omega)]
      constructor
      · rintro (rfl | ⟨k, rfl, hk⟩)
        · exact ⟨0, by simp, hlt⟩
        · exact ⟨k + 1, by push_cast; ring, hk⟩
      · rintro ⟨k, rfl, hk⟩
        cases k with
        | zero => left; simp
        | succ k => right; exact ⟨k, by push_cast; ring, hk⟩
    · rename_i hlt
      simp only [List.not_mem_nil, false_iff, not_exists, not_and]
      intro k hk hl
      have : 0 ≤ (k : Int) * step := by positivity
      omega

/-- Exactly the values `start + k*step` below the limit. -/
theorem mem_sequenceBelow {start step limit x : Int} (hs : 1 ≤ step) :
    x ∈ sequenceBelow start step limit ↔ ∃ k : Nat, x = start + k * step ∧ x < limit :=
  mem_stepsBelow hs (by omega)

theorem stepsBelow_ge {n : Nat} {start step limit x : Int} (hs : 1 ≤ step) (hx : x ∈ stepsBelow n start step limit) : start ≤ x := by
  induction n generalizing start with
  | zero => simp [stepsBelow] at hx
  | succ n ih =>
    simp only [stepsBelow] at hx
    split at hx
    · rcases List.mem_cons.1 hx with rfl | hx
      · exact le_refl _
      · have := ih hx; omega
    · simp at hx

theorem stepsBelow_lt {n : Nat} {start step limit x : Int} (hx : x ∈ stepsBelow n start step limit) : x < limit := by
  induction n generalizing start with
  | zero => simp [stepsBelow] at hx
  | succ n ih =>
    simp only [stepsBelow] at hx
    split at hx
    · rcases List.mem_cons.1 hx with rfl | hx
      · assumption
      · exact ih hx
    · simp at hx

theorem stepsBelow_ascending (n : Nat) {start step limit : Int} (hs : 1 ≤ step) :
    (stepsBelow n start step limit).Pairwise (· < ·) := by
  induction n generalizing start with
  | zero => simp [stepsBelow]
  | succ n ih =>
    simp only [stepsBelow]
    split
    · exact List.pairwise_cons.2 ⟨fun x hx => by have := stepsBelow_ge hs hx; omega, ih⟩
    · simp

/-- Ascending. -/
theorem sequenceBelow_ascending {start step limit : Int} (hs : 1 ≤ step) : (sequenceBelow start step limit).Pairwise (· < ·) :=
  stepsBelow_ascending _ hs

theorem sequenceBelow_ge {start step limit x : Int} (hs : 1 ≤ step) (hx : x ∈ sequenceBelow start step limit) : start ≤ x :=
  stepsBelow_ge hs hx

theorem sequenceBelow_lt {start step limit x : Int} (hx : x ∈ sequenceBelow start step limit) : x < limit := stepsBelow_lt hx

theorem stepsBelow_length {n : Nat} {start step limit : Int} (hs : 1 ≤ step) (hn : limit - start ≤ n) :
    ((stepsBelow n start step limit).length : Int) = if limit ≤ start then 0 else (limit - start + step - 1) / step := by
  induction n generalizing start with
  | zero => rw [if_pos (by simp at hn; omega)]; simp [stepsBelow]
  | succ n ih =>
    simp only [stepsBelow]
    split
    · rename_i hlt
      rw [if_neg (by omega), List.length_cons, Nat.cast_add, ih (by push_cast at hn; omega)]
      have e : limit - start + step - 1 = (limit - (start + step) + step - 1) + step := by ring
      split
      · have : (limit - start + step - 1) / step = 1 := by
          rw [Int.ediv_eq_iff_of_pos (by omega)]; constructor <;> omega
        rw [this]; rfl
      · rw [e, Int.add_ediv_of_dvd_right (dvd_refl _), Int.ediv_self (by omega)]; rfl
    · rw [if_pos (by omega)]; rfl

/-- How many. -/
theorem sequenceBelow_length {start step limit : Int} (hs : 1 ≤ step) :
    ((sequenceBelow start step limit).length : Int) = if limit ≤ start then 0 else (limit - start + step - 1) / step :=
  stepsBelow_length hs (by omega)

end Sys2Proof.Machine
end

