-- ==== Sys2Proof/Laws/Operands.lean ====
section
/-! SUPPORT. What each operand test accepts, in the terms of the rules, and that a result's port holds its integer. -/

namespace Sys2Proof.Machine

open Sys2Proof

theorem toPort_toInt {v : Int} (h1 : -2 ^ 31 ≤ v) (h2 : v < 2 ^ 31) : (toPort v).toInt = v := by
  unfold toPort
  rw [BitVec.toInt_ofInt, Int.bmod_eq_of_le (by norm_num at h1 ⊢; omega) (by norm_num at h2 ⊢; omega)]

@[simp] theorem toPort_of_toInt (p : IntPort) : toPort p.toInt = p := BitVec.ofInt_toInt

theorem port_lower (p : IntPort) : -2 ^ 31 ≤ p.toInt := by have := BitVec.le_toInt p; simpa using this

theorem port_upper (p : IntPort) : p.toInt < 2 ^ 31 := by have := BitVec.toInt_lt (x := p); simpa using this

/-- A port is the value's port exactly when its integer is the value. -/
theorem eq_toPort_iff {p : IntPort} {v : Int} (h1 : -2 ^ 31 ≤ v) (h2 : v < 2 ^ 31) : p = toPort v ↔ p.toInt = v := by
  constructor
  · rintro rfl; exact toPort_toInt h1 h2
  · intro h; rw [← h, toPort_of_toInt]

theorem mem_map_toPort {l : List Int} {p : IntPort} (h : ∀ v ∈ l, -2 ^ 31 ≤ v ∧ v < 2 ^ 31) : p ∈ l.map toPort ↔ p.toInt ∈ l := by
  constructor
  · intro hp
    obtain ⟨v, hv, rfl⟩ := List.mem_map.1 hp
    rwa [toPort_toInt (h v hv).1 (h v hv).2]
  · intro hp; exact List.mem_map.2 ⟨_, hp, toPort_of_toInt p⟩

theorem ascending_map_toPort {l : List Int} (h : ∀ v ∈ l, -2 ^ 31 ≤ v ∧ v < 2 ^ 31) (hl : l.Pairwise (· < ·)) :
    (l.map toPort).Pairwise fun a b => a.toInt < b.toInt := by
  rw [List.pairwise_map]
  refine hl.imp_of_mem fun {a b} ha hb hab => ?_
  rwa [toPort_toInt (h a ha).1 (h a ha).2, toPort_toInt (h b hb).1 (h b hb).2]

theorem validPrgSize_iff {v : Int} : validPrgSize v = true ↔ ∃ u : Nat, 1 ≤ u ∧ u ≤ 256 ∧ v = u * 16384 := by
  simp only [validPrgSize, prgUnit, prgUnitsMax, Bool.and_eq_true, decide_eq_true_eq, beq_iff_eq, Nat.cast_ofNat]
  constructor
  · rintro ⟨⟨⟨h1, h2⟩, h3⟩, h4⟩
    exact ⟨(v / 16384).toNat, by omega, by omega, by omega⟩
  · rintro ⟨u, h1, h2, rfl⟩; omega

theorem validChrSize_iff {v : Int} : validChrSize v = true ↔ ∃ c : Nat, c ≤ 255 ∧ v = c * 8192 := by
  simp only [validChrSize, chrUnit, chrUnitsMax, Bool.and_eq_true, decide_eq_true_eq, beq_iff_eq, Nat.cast_ofNat]
  constructor
  · rintro ⟨⟨h1, h2⟩, h3⟩
    exact ⟨(v / 8192).toNat, by omega, by omega⟩
  · rintro ⟨u, h1, rfl⟩; omega

theorem validMapper_iff {v : Int} : validMapper v = true ↔ ∃ m : Nat, m ≤ 255 ∧ v = m := by
  simp only [validMapper, Bool.and_eq_true, decide_eq_true_eq]
  constructor
  · rintro ⟨h1, h2⟩; exact ⟨v.toNat, by omega, by omega⟩
  · rintro ⟨m, h1, rfl⟩; omega

theorem validBankSize_iff {v : Int} : validBankSize v = true ↔ v ∈ [8192, 16384, 32768] := by
  simp [validBankSize, bankSizes]

theorem inCpuWindow_iff {v : Int} : inCpuWindow v = true ↔ 0x8000 ≤ v ∧ v ≤ 0xFFFF := by
  simp only [inCpuWindow, cpuWinLo, cpuWinHi, Bool.and_eq_true, decide_eq_true_eq]

theorem mirrOfCode_none_iff : ∀ {c : BitVec 2}, mirrOfCode c = none ↔ c = 3 := by decide

theorem mirrOfCode_mirrCode : ∀ m : Mirroring, mirrOfCode (mirrCode m) = some m := by
  intro m; cases m <;> rfl

theorem mirrCode_mirrOfCode : ∀ {c : BitVec 2} {m : Mirroring}, mirrOfCode c = some m → mirrCode m = c := by decide +revert

theorem codeLength_some {v : Int} {l : Nat} : codeLength v = some l ↔ (v = 6 ∧ l = 6) ∨ (v = 8 ∧ l = 8) := by
  unfold codeLength
  split
  · simp_all; omega
  · split <;> simp_all; omega

theorem codeLength_none {v : Int} : codeLength v = none ↔ v ≠ 6 ∧ v ≠ 8 := by
  unfold codeLength
  split
  · simp_all
  · split <;> simp_all

@[simp] theorem letterValue_letterOf : ∀ v : Nibble, letterValue (letterOf v) = some v := by decide

theorem spells_of_letterValue (c : Byte) : ∀ v ∈ letterValue c,
    letterTable.any (fun row => row.1 == v && (c == row.2.1 || c == row.2.2)) = true := by
  have hall : ∀ a b : BitVec 4, ∀ v ∈ letterValue (a ++ b : BitVec 8),
      letterTable.any (fun row => row.1 == v && ((a ++ b : BitVec 8) == row.2.1 || (a ++ b : BitVec 8) == row.2.2)) = true := by decide
  have hc : (c.extractLsb' 4 4 ++ c.extractLsb' 0 4 : BitVec 8) = c := by
    ext i hi
    rw [BitVec.getElem_append]
    split
    · rw [BitVec.getElem_extractLsb', Nat.zero_add, BitVec.getLsbD_eq_getElem hi]
    · rw [BitVec.getElem_extractLsb', show 4 + (i - 4) = i by omega, BitVec.getLsbD_eq_getElem hi]
  simpa only [hc] using hall (c.extractLsb' 4 4) (c.extractLsb' 0 4)

theorem letterValue_of_row : ∀ row ∈ letterTable, letterValue row.2.1 = some row.1 ∧ letterValue row.2.2 = some row.1 := by
  have h : letterTable.all (fun row => letterValue row.2.1 == some row.1 && letterValue row.2.2 == some row.1) = true := by decide
  simpa using h

/-- A character has a value exactly when it spells that letter in either case. -/
theorem letterValue_iff {c : Byte} {v : Nibble} : letterValue c = some v ↔ SpellsLetter c v := by
  constructor
  · intro h
    have := spells_of_letterValue c v h
    simp only [List.any_eq_true, Bool.and_eq_true, Bool.or_eq_true, beq_iff_eq] at this
    exact this
  · rintro ⟨row, hr, rfl, rfl | rfl⟩
    · exact (letterValue_of_row row hr).1
    · exact (letterValue_of_row row hr).2

theorem isUpperLetter_letterOf (v : Nibble) : IsUpperLetter (letterOf v) v := by
  have : ∀ v : Nibble, letterTable.any (fun row => row.1 == v && letterOf v == row.2.1) = true := by decide
  simpa [IsUpperLetter] using this v

end Sys2Proof.Machine
end

