-- ==== Sys2Proof/Laws/Bank.lean ====
section
/-! SUPPORT. All that the translator's operations do, and which offsets and addresses its sequences hold (20_memory.md R40). -/

namespace Sys2Proof.Machine

open Sys2Proof

/-! ### The bank table and the address translator -/

theorem bankSize_pos {b : Int} (h : b ∈ [8192, 16384, 32768]) : 1 ≤ b := by
  simp at h; omega

/-- The candidates of R81 lie at `offset`, `offset + bank`, … below `PRGSIZE`. -/
theorem mem_cpuToPrg {a b z p : Int} (hb : b ∈ [8192, 16384, 32768]) :
    p ∈ cpuToPrg a b z ↔ ∃ k : Nat, p = a % b + k * b ∧ p < z :=
  mem_sequenceBelow (bankSize_pos hb)

theorem mem_prgToCpu {p b a : Int} (hb : b ∈ [8192, 16384, 32768]) :
    a ∈ prgToCpu p b ↔ ∃ k : Nat, a = 0x8000 + p % b + k * b ∧ a < 0x10000 :=
  mem_sequenceBelow (bankSize_pos hb)

theorem cpuToPrg_bounds {a b z p : Int} (hb : b ∈ [8192, 16384, 32768]) (hp : p ∈ cpuToPrg a b z) : 0 ≤ p ∧ p < z := by
  have h1 := sequenceBelow_ge (bankSize_pos hb) hp
  have h2 := sequenceBelow_lt hp
  have h3 : 0 ≤ a % b := Int.emod_nonneg _ (by have := bankSize_pos hb; omega)
  omega

theorem prgToCpu_bounds {a b p : Int} (hb : b ∈ [8192, 16384, 32768]) (ha : a ∈ prgToCpu p b) : 0x8000 ≤ a ∧ a < 0x10000 := by
  have h1 := sequenceBelow_ge (bankSize_pos hb) ha
  have h2 : a < 0x10000 := sequenceBelow_lt ha
  have h3 : 0 ≤ p % b := Int.emod_nonneg _ (by have := bankSize_pos hb; omega)
  simp only [cpuWinLo] at h1
  omega

/-- The candidates are the PRG offsets below `PRGSIZE` at the address's place inside a bank (R40). -/
theorem mem_cpuToPrg_iff {a b z p : Int} (hb : b ∈ [8192, 16384, 32768]) :
    p ∈ cpuToPrg a b z ↔ 0 ≤ p ∧ p < z ∧ p % b = a % b := by
  have hpos : 0 < b := bankSize_pos hb
  rw [mem_cpuToPrg hb]
  constructor
  · rintro ⟨k, rfl, hz⟩
    have h0 : 0 ≤ a % b := Int.emod_nonneg _ (by omega)
    have : 0 ≤ (k : Int) * b := by positivity
    exact ⟨by omega, hz, by simp⟩
  · rintro ⟨h0, hz, he⟩
    refine ⟨(p / b).toNat, ?_, hz⟩
    have := Int.emod_add_mul_ediv p b
    rw [Int.toNat_of_nonneg (Int.ediv_nonneg h0 (by omega)), ← he]
    linarith [mul_comm b (p / b)]

/-- The CPU addresses are those of the window at the offset's place inside a bank (R40). -/
theorem mem_prgToCpu_iff {p b a : Int} (hb : b ∈ [8192, 16384, 32768]) :
    a ∈ prgToCpu p b ↔ 0x8000 ≤ a ∧ a < 0x10000 ∧ a % b = p % b := by
  have hpos : 0 < b := bankSize_pos hb
  have hdvd : (0x8000 : Int) % b = 0 := by simp at hb; rcases hb with rfl | rfl | rfl <;> rfl
  rw [mem_prgToCpu hb]
  constructor
  · rintro ⟨k, rfl, hz⟩
    have h0 : 0 ≤ p % b := Int.emod_nonneg _ (by omega)
    have : 0 ≤ (k : Int) * b := by positivity
    refine ⟨by omega, hz, ?_⟩
    rw [Int.add_mul_emod_self_right, Int.add_emod, hdvd]; simp
  · rintro ⟨h0, hz, he⟩
    refine ⟨((a - 0x8000) / b).toNat, ?_, hz⟩
    have h1 := Int.emod_add_mul_ediv (a - 0x8000) b
    have h2 : (a - 0x8000) % b = p % b := by rw [Int.sub_emod, hdvd, he]; simp
    rw [Int.toNat_of_nonneg (Int.ediv_nonneg (by omega) (by omega)), ← h2]
    linarith [mul_comm b ((a - 0x8000) / b)]

theorem cpuToPrg_fits {a b : Int} {z : IntPort} (hb : b ∈ [8192, 16384, 32768]) :
    ∀ v ∈ cpuToPrg a b z.toInt, -2 ^ 31 ≤ v ∧ v < 2 ^ 31 := fun v hv => by
  have := cpuToPrg_bounds hb hv
  have := port_upper z
  omega

theorem prgToCpu_fits {p b : Int} (hb : b ∈ [8192, 16384, 32768]) : ∀ v ∈ prgToCpu p b, -2 ^ 31 ≤ v ∧ v < 2 ^ 31 := fun v hv => by
  have := prgToCpu_bounds hb hv
  omega

/-- All that BANK.P2C does. -/
theorem execBankP2c_cases (s : State) :
    ((s.bankSize.toInt ∉ [8192, 16384, 32768] ∨ s.prgAddr.toInt < 0) ∧ execBankP2c s = raise .addressOutOfRange s) ∨
    (s.bankSize.toInt ∈ [8192, 16384, 32768] ∧ 0 ≤ s.prgAddr.toInt ∧
      execBankP2c s = complete (.bankP2c ((prgToCpu s.prgAddr.toInt s.bankSize.toInt).map toPort)) s) := by
  unfold execBankP2c
  by_cases h1 : s.bankSize.toInt ∈ [8192, 16384, 32768]
  · have h1' := validBankSize_iff.2 h1
    by_cases h2 : s.prgAddr.toInt < 0
    · exact .inl ⟨.inr h2, by simp [h2]⟩
    · exact .inr ⟨h1, by omega, by simp [h1', h2]⟩
  · have h1' := Bool.eq_false_iff.2 (validBankSize_iff.not.2 h1)
    exact .inl ⟨.inl h1, by simp [h1']⟩

/-- The domain of BANK.C2P and BANK.C2PF (R77, R80). -/
def cpuDomain (s : State) : Prop :=
  s.bankSize.toInt ∈ [8192, 16384, 32768] ∧ 0x8000 ≤ s.cpuAddr.toInt ∧ s.cpuAddr.toInt ≤ 0xFFFF

theorem cpuDomain_test (s : State) :
    (cpuDomain s ∧ (!validBankSize s.bankSize.toInt || !inCpuWindow s.cpuAddr.toInt) = false) ∨
    (¬ cpuDomain s ∧ (!validBankSize s.bankSize.toInt || !inCpuWindow s.cpuAddr.toInt) = true) := by
  by_cases h1 : s.bankSize.toInt ∈ [8192, 16384, 32768]
  · have h1' := validBankSize_iff.2 h1
    by_cases h2 : 0x8000 ≤ s.cpuAddr.toInt ∧ s.cpuAddr.toInt ≤ 0xFFFF
    · exact .inl ⟨⟨h1, h2⟩, by rw [h1', inCpuWindow_iff.2 h2]; rfl⟩
    · have h2' := Bool.eq_false_iff.2 (inCpuWindow_iff.not.2 h2)
      exact .inr ⟨fun h => h2 h.2, by rw [h1', h2']; rfl⟩
  · have h1' := Bool.eq_false_iff.2 (validBankSize_iff.not.2 h1)
    exact .inr ⟨fun h => h1 h.1, by rw [h1']; rfl⟩

/-- All that BANK.C2P does. -/
theorem execBankC2p_cases (s : State) :
    (¬ cpuDomain s ∧ execBankC2p s = raise .addressOutOfRange s) ∨
    (cpuDomain s ∧
      execBankC2p s = complete (.bankC2p ((cpuToPrg s.cpuAddr.toInt s.bankSize.toInt s.prgSize.toInt).map toPort)) s) := by
  unfold execBankC2p
  rcases cpuDomain_test s with ⟨h, e⟩ | ⟨h, e⟩
  · exact .inr ⟨h, by rw [e]; rfl⟩
  · exact .inl ⟨h, by rw [e]; rfl⟩

/-- In a buffer of at least `PRGSIZE` bytes every candidate's byte is there. -/
theorem candidate_present {s : State} {p : Int} (hb : s.bankSize.toInt ∈ [8192, 16384, 32768]) (hz : s.prgSize.toInt ≤ s.prg.size)
    (hp : p ∈ cpuToPrg s.cpuAddr.toInt s.bankSize.toInt s.prgSize.toInt) : (memRead .prg p.toNat s).isSome := by
  have := cpuToPrg_bounds hb hp
  exact Memory.read_isSome.2 (by omega)

/-- All that the filter keeps. -/
theorem mem_filterByByte {s : State} {l : List Int} {p : Int} :
    p ∈ filterByByte s l ↔ p ∈ l ∧ memRead .prg p.toNat s = some s.compareByte := by
  simp [filterByByte]

theorem prgBufferShort_iff {s : State} : prgBufferShort s = true ↔ (s.prg.size : Int) < s.prgSize.toInt := by
  simp [prgBufferShort]

/-- All that BANK.C2PF does. -/
theorem execBankC2pf_cases (s : State) :
    (¬ cpuDomain s ∧ execBankC2pf s = raise .addressOutOfRange s) ∨
    (cpuDomain s ∧ (s.prg.size : Int) < s.prgSize.toInt ∧ execBankC2pf s = .refused .prgBufferShort) ∨
    (cpuDomain s ∧ s.prgSize.toInt ≤ s.prg.size ∧
      execBankC2pf s =
        complete (.bankC2pf ((filterByByte s (cpuToPrg s.cpuAddr.toInt s.bankSize.toInt s.prgSize.toInt)).map toPort)) s) := by
  unfold execBankC2pf
  rcases cpuDomain_test s with ⟨h, e⟩ | ⟨h, e⟩
  · by_cases hz : (s.prg.size : Int) < s.prgSize.toInt
    · exact .inr (.inl ⟨h, hz, by rw [e, prgBufferShort_iff.2 hz]; rfl⟩)
    · have hz' := Bool.eq_false_iff.2 (prgBufferShort_iff.not.2 hz)
      exact .inr (.inr ⟨h, by omega, by rw [e, hz']; rfl⟩)
  · exact .inl ⟨h, by rw [e]; rfl⟩

end Sys2Proof.Machine
end

