-- ==== Sys2Proof/Laws/GameGenie.lean ====
section
/-! SUPPORT. All that GG.DEC and GG.ENC do, and the two code layouts bit by bit (30_encoding.md R55, R56). -/

namespace Sys2Proof.Machine

open Sys2Proof

/-! ### GG.DEC -/

/-- The nibble of R88: a neighbour's bit 3 and a letter's own low bits. -/
theorem nibble_toNat (m n : Nibble) : ((m &&& 8) ||| (n &&& 7)).toNat = m.toNat / 8 * 8 + n.toNat % 8 := by
  have : ∀ m n : Nibble, ((m &&& 8) ||| (n &&& 7)).toNat = m.toNat / 8 * 8 + n.toNat % 8 := by decide
  exact this m n

/-- Appending a nibble to an accumulator that has room for it. -/
theorem append_toNat (acc : BitVec 32) (n : Nibble) (h : acc.toNat < 2 ^ 28) :
    ((acc <<< 4) ||| n.setWidth 32).toNat = acc.toNat * 16 + n.toNat := by
  have hn := n.isLt
  rw [BitVec.toNat_or, BitVec.toNat_shiftLeft, BitVec.toNat_setWidth, Nat.shiftLeft_eq, Nat.mod_eq_of_lt (by omega),
    Nat.mod_eq_of_lt (by omega), Nat.mul_comm, ← Nat.two_pow_add_eq_or_of_lt hn]

/-- The loop of R88 in numbers, as long as the accumulator has room. -/
theorem accumulate_loop (n : List Nibble) (len : Nat) (ks : List Nat) (acc : BitVec 32) (h : (acc.toNat + 1) * 16 ^ ks.length ≤ 2 ^ 32) :
    (ks.foldl (accumulateStep n len) acc).toNat =
      ks.foldl (fun a p => a * 16 + ((letterAt n ((p + len - 1) % len)).toNat / 8 * 8 + (letterAt n p).toNat % 8)) acc.toNat := by
  induction ks generalizing acc with
  | nil => rfl
  | cons p ks ih =>
    have hpos : 1 ≤ 16 ^ ks.length := Nat.one_le_pow _ _ (by decide)
    rw [List.length_cons, pow_succ] at h
    have hroom : acc.toNat < 2 ^ 28 := by nlinarith
    have hstep := append_toNat acc ((letterAt n ((p + len - 1) % len) &&& 8) ||| (letterAt n p &&& 7)) hroom
    rw [List.foldl_cons, List.foldl_cons, ih, accumulateStep, hstep, nibble_toNat]
    rw [accumulateStep, hstep]
    have := ((letterAt n ((p + len - 1) % len) &&& 8) ||| (letterAt n p &&& 7)).isLt
    calc _ ≤ ((acc.toNat + 1) * 16) * 16 ^ ks.length := Nat.mul_le_mul_right _ (by omega)
      _ ≤ 2 ^ 32 := by linarith [h]

/-- `accumulate` in numbers. -/
theorem accumulate_toNat (n : List Nibble) (len : Nat) :
    (accumulate n len).toNat = (key.take len).foldl
      (fun a p => a * 16 + ((letterAt n ((p + len - 1) % len)).toNat / 8 * 8 + (letterAt n p).toNat % 8)) 0 := by
  refine accumulate_loop n len _ 0 ?_
  have : (key.take len).length ≤ 8 := by simp [key]
  calc _ ≤ 1 * 16 ^ 8 := Nat.mul_le_mul (by simp) (Nat.pow_le_pow_right (by decide) this)
    _ ≤ 2 ^ 32 := by norm_num

theorem or_top_toNat (a : BitVec 16) : (a ||| 0x8000).toNat = 0x8000 + a.toNat % 0x8000 := by
  have h : a ||| 0x8000 = 0x8000 ||| (a &&& 0x7FFF) := by
    ext i hi
    interval_cases i <;> simp
  have e : (a &&& 0x7FFF).toNat = a.toNat % 0x8000 := by
    rw [BitVec.toNat_and]; exact Nat.and_two_pow_sub_one_eq_mod a.toNat 15
  rw [h, BitVec.toNat_or, e]
  have := Nat.two_pow_add_eq_or_of_lt (i := 15) (b := a.toNat % 0x8000) (by omega) 1
  simpa using this.symm

/-- `split` in numbers, six letters (R89). -/
theorem splitSix_eq (acc : BitVec 32) :
    splitSix acc = .sixLetter (BitVec.ofNat 32 (0x8000 + acc.toNat / 0x100 % 0x8000)) (BitVec.ofNat 32 (acc.toNat % 0x100)) := by
  unfold splitSix
  congr 1
  · apply BitVec.eq_of_toNat_eq
    rw [BitVec.toNat_setWidth, or_top_toNat]
    simp only [BitVec.extractLsb'_toNat, Nat.shiftRight_eq_div_pow, BitVec.toNat_ofNat]
    omega
  · apply BitVec.eq_of_toNat_eq
    simp only [BitVec.toNat_setWidth, BitVec.extractLsb'_toNat, Nat.shiftRight_eq_div_pow, BitVec.toNat_ofNat, Nat.pow_zero, Nat.div_one]

/-- `split` in numbers, eight letters (R89). -/
theorem splitEight_eq (acc : BitVec 32) :
    splitEight acc = .eightLetter (BitVec.ofNat 32 (0x8000 + acc.toNat / 0x10000 % 0x8000)) (BitVec.ofNat 32 (acc.toNat / 0x100 % 0x100))
      (BitVec.ofNat 32 (acc.toNat % 0x100)) := by
  unfold splitEight
  congr 1
  · apply BitVec.eq_of_toNat_eq
    rw [BitVec.toNat_setWidth, or_top_toNat]
    simp only [BitVec.extractLsb'_toNat, Nat.shiftRight_eq_div_pow, BitVec.toNat_ofNat]
    omega
  · apply BitVec.eq_of_toNat_eq
    simp only [BitVec.toNat_setWidth, BitVec.extractLsb'_toNat, Nat.shiftRight_eq_div_pow, BitVec.toNat_ofNat]
  · apply BitVec.eq_of_toNat_eq
    simp only [BitVec.toNat_setWidth, BitVec.extractLsb'_toNat, Nat.shiftRight_eq_div_pow, BitVec.toNat_ofNat]
    omega

/-- The letters read are those the characters spell (R87 step S2). -/
theorem readLetters_some {code : Vector Byte 8} {len : Nat} {n : List Nibble} :
    readLetters code len = some n ↔ List.Forall₂ (fun c v => letterValue c = some v) (code.toList.take len) n := by
  unfold readLetters
  generalize code.toList.take len = l
  induction l generalizing n with
  | nil => simp [List.mapM_nil]
  | cons c l ih =>
    rw [List.mapM_cons]
    cases hc : letterValue c with
    | none => simp; rintro ⟨⟩; simp_all
    | some v =>
      cases n with
      | nil => cases hl : l.mapM letterValue <;> simp
      | cons w n =>
        rw [List.forall₂_cons, ← ih]
        cases hl : l.mapM letterValue <;> simp [hc]

/-! ### GG.ENC -/

theorem packSix_toNat (a : BitVec 16) (r : Byte) : (packSix a r).toNat = a.toNat % 0x8000 * 0x100 + r.toNat := by
  have hr := r.isLt
  have e : (a &&& 0x7FFF).toNat = a.toNat % 0x8000 := by
    rw [BitVec.toNat_and]; exact Nat.and_two_pow_sub_one_eq_mod a.toNat 15
  simp only [packSix, BitVec.toNat_or, BitVec.toNat_shiftLeft, BitVec.toNat_setWidth, e, Nat.shiftLeft_eq]
  rw [Nat.mod_eq_of_lt (by omega), Nat.mod_eq_of_lt (a := r.toNat) (by omega), Nat.mod_eq_of_lt (by omega), Nat.mul_comm,
    ← Nat.two_pow_add_eq_or_of_lt hr]

theorem packEight_toNat (a : BitVec 16) (r c : Byte) :
    (packEight a r c).toNat = (0x8000 + a.toNat % 0x8000) * 0x10000 + r.toNat * 0x100 + c.toNat := by
  have hr := r.isLt
  have hc := c.isLt
  have haa : ((a ||| 0x8000).setWidth 32 <<< 16).toNat = 2 ^ 16 * (0x8000 + a.toNat % 0x8000) := by
    rw [BitVec.toNat_shiftLeft, BitVec.toNat_setWidth, or_top_toNat, Nat.shiftLeft_eq]; omega
  have hrr : (r.setWidth 32 <<< 8).toNat = 2 ^ 8 * r.toNat := by
    rw [BitVec.toNat_shiftLeft, BitVec.toNat_setWidth, Nat.shiftLeft_eq]; omega
  have hcc : (c.setWidth 32).toNat = c.toNat := by rw [BitVec.toNat_setWidth]; omega
  unfold packEight
  rw [BitVec.toNat_or, BitVec.toNat_or, haa, hrr, hcc]
  rw [Nat.or_assoc, ← Nat.two_pow_add_eq_or_of_lt (by omega : c.toNat < 2 ^ 8), ← Nat.two_pow_add_eq_or_of_lt (by omega)]
  ring

/-- Nibble `j` of an accumulator, counted from the least significant end. -/
def accNibble (acc : BitVec 32) (j : Nat) : Nibble := BitVec.ofNat 4 (acc.toNat / 16 ^ j)

theorem accNibble_toNat (acc : BitVec 32) (j : Nat) : (accNibble acc j).toNat = acc.toNat / 16 ^ j % 16 := by
  simp [accNibble]

/-- A letter put together from the low bits of one nibble and bit 3 of another. -/
def joinNibbles (hi lo : Nibble) : Nibble := BitVec.ofNat 4 (hi.toNat / 8 * 8 + lo.toNat % 8)

/-- The accumulator's low nibble after `j` passes of R93. -/
theorem shifted_nibble (acc : BitVec 32) (j : Nat) : (acc >>> (4 * j)).setWidth 4 = accNibble acc j := by
  apply BitVec.eq_of_toNat_eq
  rw [accNibble_toNat, BitVec.toNat_setWidth, BitVec.toNat_ushiftRight, Nat.shiftRight_eq_div_pow, pow_mul]
  norm_num

theorem join_low_high (lo hi : Nibble) : (0 ||| (lo &&& 7)) ||| (hi &&& 8) = joinNibbles hi lo := by
  have : ∀ lo hi : Nibble, (0 ||| (lo &&& 7)) ||| (hi &&& 8) = joinNibbles hi lo := by decide
  exact this lo hi

theorem join_high_low (lo hi : Nibble) : (0 ||| (hi &&& 8)) ||| (lo &&& 7) = joinNibbles hi lo := by
  have : ∀ lo hi : Nibble, (0 ||| (hi &&& 8)) ||| (lo &&& 7) = joinNibbles hi lo := by decide
  exact this lo hi

/-- R93 for six letters: which two nibbles make each letter. -/
theorem distribute_six (acc : BitVec 32) :
    distribute acc 6 =
      [joinNibbles (accNibble acc 1) (accNibble acc 0), joinNibbles (accNibble acc 3) (accNibble acc 1),
       joinNibbles (accNibble acc 5) (accNibble acc 3), joinNibbles (accNibble acc 2) (accNibble acc 5),
       joinNibbles (accNibble acc 4) (accNibble acc 2), joinNibbles (accNibble acc 0) (accNibble acc 4)] := by
  simp only [← join_low_high, ← shifted_nibble]
  simp [distribute, distributeStep, key, List.modify, List.modifyTailIdx, List.modifyTailIdx.go, List.modifyHead, BitVec.or_comm]

/-- R93 for eight letters: which two nibbles make each letter. -/
theorem distribute_eight (acc : BitVec 32) :
    distribute acc 8 =
      [joinNibbles (accNibble acc 3) (accNibble acc 2), joinNibbles (accNibble acc 5) (accNibble acc 3),
       joinNibbles (accNibble acc 7) (accNibble acc 5), joinNibbles (accNibble acc 4) (accNibble acc 7),
       joinNibbles (accNibble acc 6) (accNibble acc 4), joinNibbles (accNibble acc 0) (accNibble acc 6),
       joinNibbles (accNibble acc 1) (accNibble acc 0), joinNibbles (accNibble acc 2) (accNibble acc 1)] := by
  simp only [← join_low_high, ← shifted_nibble]
  simp [distribute, distributeStep, key, List.modify, List.modifyTailIdx, List.modifyTailIdx.go, List.modifyHead, BitVec.or_comm]

/-- The letters of a six-letter result by operand bits (R55 read backwards). -/
theorem distribute_packSix (a : BitVec 16) (r : Byte) :
    distribute (packSix a r) 6 =
      [BitVec.ofNat 4 (r.toNat / 0x80 % 2 * 8 + r.toNat % 8), BitVec.ofNat 4 (a.toNat / 0x80 % 2 * 8 + r.toNat / 0x10 % 8),
       BitVec.ofNat 4 (a.toNat / 0x10 % 8), BitVec.ofNat 4 (a.toNat / 8 % 2 * 8 + a.toNat / 0x1000 % 8),
       BitVec.ofNat 4 (a.toNat / 0x800 % 2 * 8 + a.toNat % 8), BitVec.ofNat 4 (r.toNat / 8 % 2 * 8 + a.toNat / 0x100 % 8)] := by
  have hr := r.isLt
  rw [distribute_six]
  simp only [joinNibbles, accNibble_toNat, packSix_toNat, Nat.pow_zero, Nat.div_one, Nat.reducePow, List.cons.injEq, and_true]
  refine ⟨?_, ?_, ?_, ?_, ?_, ?_⟩ <;> (congr 1; omega)

/-- The letters of an eight-letter result by operand bits (R56 read backwards). -/
theorem distribute_packEight (a : BitVec 16) (r d : Byte) :
    distribute (packEight a r d) 8 =
      [BitVec.ofNat 4 (r.toNat / 0x80 % 2 * 8 + r.toNat % 8), BitVec.ofNat 4 (a.toNat / 0x80 % 2 * 8 + r.toNat / 0x10 % 8),
       BitVec.ofNat 4 (8 + a.toNat / 0x10 % 8), BitVec.ofNat 4 (a.toNat / 8 % 2 * 8 + a.toNat / 0x1000 % 8),
       BitVec.ofNat 4 (a.toNat / 0x800 % 2 * 8 + a.toNat % 8), BitVec.ofNat 4 (d.toNat / 8 % 2 * 8 + a.toNat / 0x100 % 8),
       BitVec.ofNat 4 (d.toNat / 0x80 % 2 * 8 + d.toNat % 8), BitVec.ofNat 4 (r.toNat / 8 % 2 * 8 + d.toNat / 0x10 % 8)] := by
  have hr := r.isLt
  have hd := d.isLt
  rw [distribute_eight]
  simp only [joinNibbles, accNibble_toNat, packEight_toNat, Nat.pow_zero, Nat.div_one, Nat.reducePow, List.cons.injEq, and_true]
  refine ⟨?_, ?_, ?_, ?_, ?_, ?_, ?_, ?_⟩ <;> (congr 1; omega)

/-- The triple of six letter values, bit by bit (R55). -/
theorem decodeLetters_six (n0 n1 n2 n3 n4 n5 : Nibble) :
    decodeLetters [n0, n1, n2, n3, n4, n5] 6 = .sixLetter
      (BitVec.ofNat 32 (0x8000 + n3.toNat % 8 * 0x1000 + n4.toNat / 8 * 0x800 + n5.toNat % 8 * 0x100 +
        n1.toNat / 8 * 0x80 + n2.toNat % 8 * 0x10 + n3.toNat / 8 * 8 + n4.toNat % 8))
      (BitVec.ofNat 32 (n0.toNat / 8 * 0x80 + n1.toNat % 8 * 0x10 + n5.toNat / 8 * 8 + n0.toNat % 8)) := by
  have h0 : n0.toNat / 8 < 2 := by have := n0.isLt; omega
  have l0 : n0.toNat % 8 < 8 := Nat.mod_lt _ (by decide)
  have h1 : n1.toNat / 8 < 2 := by have := n1.isLt; omega
  have l1 : n1.toNat % 8 < 8 := Nat.mod_lt _ (by decide)
  have h2 : n2.toNat / 8 < 2 := by have := n2.isLt; omega
  have l2 : n2.toNat % 8 < 8 := Nat.mod_lt _ (by decide)
  have h3 : n3.toNat / 8 < 2 := by have := n3.isLt; omega
  have l3 : n3.toNat % 8 < 8 := Nat.mod_lt _ (by decide)
  have h4 : n4.toNat / 8 < 2 := by have := n4.isLt; omega
  have l4 : n4.toNat % 8 < 8 := Nat.mod_lt _ (by decide)
  have h5 : n5.toNat / 8 < 2 := by have := n5.isLt; omega
  have l5 : n5.toNat % 8 < 8 := Nat.mod_lt _ (by decide)
  rw [decodeLetters, if_pos rfl, splitSix_eq, accumulate_toNat]
  simp only [key, List.take, List.foldl, letterAt, List.getD_eq_getElem?_getD, List.getElem?_cons_succ, List.getElem?_cons_zero,
    Option.getD_some, Nat.reduceAdd, Nat.reduceSub, Nat.reduceMod, Nat.zero_mul, Nat.zero_add]
  generalize n0.toNat / 8 = a0 at *
  generalize n0.toNat % 8 = b0 at *
  generalize n1.toNat / 8 = a1 at *
  generalize n1.toNat % 8 = b1 at *
  generalize n2.toNat / 8 = a2 at *
  generalize n2.toNat % 8 = b2 at *
  generalize n3.toNat / 8 = a3 at *
  generalize n3.toNat % 8 = b3 at *
  generalize n4.toNat / 8 = a4 at *
  generalize n4.toNat % 8 = b4 at *
  generalize n5.toNat / 8 = a5 at *
  generalize n5.toNat % 8 = b5 at *
  congr 2 <;> omega

/-- The triple of eight letter values, bit by bit (R56). -/
theorem decodeLetters_eight (n0 n1 n2 n3 n4 n5 n6 n7 : Nibble) :
    decodeLetters [n0, n1, n2, n3, n4, n5, n6, n7] 8 = .eightLetter
      (BitVec.ofNat 32 (0x8000 + n3.toNat % 8 * 0x1000 + n4.toNat / 8 * 0x800 + n5.toNat % 8 * 0x100 +
        n1.toNat / 8 * 0x80 + n2.toNat % 8 * 0x10 + n3.toNat / 8 * 8 + n4.toNat % 8))
      (BitVec.ofNat 32 (n0.toNat / 8 * 0x80 + n1.toNat % 8 * 0x10 + n7.toNat / 8 * 8 + n0.toNat % 8))
      (BitVec.ofNat 32 (n6.toNat / 8 * 0x80 + n7.toNat % 8 * 0x10 + n5.toNat / 8 * 8 + n6.toNat % 8)) := by
  have h0 : n0.toNat / 8 < 2 := by have := n0.isLt; omega
  have l0 : n0.toNat % 8 < 8 := Nat.mod_lt _ (by decide)
  have h1 : n1.toNat / 8 < 2 := by have := n1.isLt; omega
  have l1 : n1.toNat % 8 < 8 := Nat.mod_lt _ (by decide)
  have h2 : n2.toNat / 8 < 2 := by have := n2.isLt; omega
  have l2 : n2.toNat % 8 < 8 := Nat.mod_lt _ (by decide)
  have h3 : n3.toNat / 8 < 2 := by have := n3.isLt; omega
  have l3 : n3.toNat % 8 < 8 := Nat.mod_lt _ (by decide)
  have h4 : n4.toNat / 8 < 2 := by have := n4.isLt; omega
  have l4 : n4.toNat % 8 < 8 := Nat.mod_lt _ (by decide)
  have h5 : n5.toNat / 8 < 2 := by have := n5.isLt; omega
  have l5 : n5.toNat % 8 < 8 := Nat.mod_lt _ (by decide)
  have h6 : n6.toNat / 8 < 2 := by have := n6.isLt; omega
  have l6 : n6.toNat % 8 < 8 := Nat.mod_lt _ (by decide)
  have h7 : n7.toNat / 8 < 2 := by have := n7.isLt; omega
  have l7 : n7.toNat % 8 < 8 := Nat.mod_lt _ (by decide)
  rw [decodeLetters, if_neg (by decide), splitEight_eq, accumulate_toNat]
  simp only [key, List.take, List.foldl, letterAt, List.getD_eq_getElem?_getD, List.getElem?_cons_succ, List.getElem?_cons_zero,
    Option.getD_some, Nat.reduceAdd, Nat.reduceSub, Nat.reduceMod, Nat.zero_mul, Nat.zero_add]
  generalize n0.toNat / 8 = a0 at *
  generalize n0.toNat % 8 = b0 at *
  generalize n1.toNat / 8 = a1 at *
  generalize n1.toNat % 8 = b1 at *
  generalize n2.toNat / 8 = a2 at *
  generalize n2.toNat % 8 = b2 at *
  generalize n3.toNat / 8 = a3 at *
  generalize n3.toNat % 8 = b3 at *
  generalize n4.toNat / 8 = a4 at *
  generalize n4.toNat % 8 = b4 at *
  generalize n5.toNat / 8 = a5 at *
  generalize n5.toNat % 8 = b5 at *
  generalize n6.toNat / 8 = a6 at *
  generalize n6.toNat % 8 = b6 at *
  generalize n7.toNat / 8 = a7 at *
  generalize n7.toNat % 8 = b7 at *
  congr 2 <;> omega

/-- All that GG.DEC computes. -/
theorem decodeCode_cases (len : Int) (code : Vector Byte 8) :
    (len ≠ 6 ∧ len ≠ 8 ∧ decodeCode len code = .error .invalidCode) ∨
    (∃ l : Nat, ((len = 6 ∧ l = 6) ∨ (len = 8 ∧ l = 8)) ∧
      ((readLetters code l = none ∧ decodeCode len code = .error .invalidCode) ∨
       (∃ n, readLetters code l = some n ∧ decodeCode len code = .ok (decodeLetters n l)))) := by
  unfold decodeCode
  cases hl : codeLength len with
  | none => exact .inl ⟨(codeLength_none.1 hl).1, (codeLength_none.1 hl).2, rfl⟩
  | some l =>
    refine .inr ⟨l, codeLength_some.1 hl, ?_⟩
    cases hn : readLetters code l with
    | none => exact .inl ⟨rfl, by simp only [hn]⟩
    | some n => exact .inr ⟨n, rfl, by simp only [hn]⟩

theorem execGgDec_of_error {s : State} {e : ErrorKind} (h : decodeCode s.len.toInt s.code = .error e) : execGgDec s = raise e s := by
  simp [execGgDec, h]

theorem execGgDec_of_ok {s : State} {t : Triple} (h : decodeCode s.len.toInt s.code = .ok t) : execGgDec s = complete (.ggDec t) s := by
  simp [execGgDec, h]

/-- A code whose letters are `n` is read as `n`. -/
theorem readLetters_of_forall {code : Vector Byte 8} {n : List Nibble} (hlen : n.length ≤ 8)
    (h : ∀ i : Fin 8, i.val < n.length → letterValue code[i] = n[i.val]?) : readLetters code n.length = some n := by
  rw [readLetters_some, List.forall₂_iff_get]
  refine ⟨by simp; omega, fun i h1 h2 => ?_⟩
  have hi : i < 8 := by omega
  have := h ⟨i, hi⟩ h2
  simpa [List.getElem?_eq_getElem h2] using this

theorem length_of_readLetters {code : Vector Byte 8} {len : Nat} {n : List Nibble} (hlen : len ≤ 8) (h : readLetters code len = some n) :
    n.length = len := by
  rw [readLetters_some] at h
  have := h.length_eq
  simp at this; omega

theorem value_of_readLetters {code : Vector Byte 8} {len : Nat} {n : List Nibble} (h : readLetters code len = some n) (i : Fin 8)
    (hi : i.val < len) : letterValue code[i] = n[i.val]? := by
  rw [readLetters_some, List.forall₂_iff_get] at h
  obtain ⟨hl, h⟩ := h
  have h8 := i.isLt
  have h1 : i.val < (code.toList.take len).length := by simp; omega
  have := h i.val h1 (by omega)
  rw [List.getElem?_eq_getElem (by omega)]
  simpa using this

theorem validTriple_iff {a r : Int} {c : Option Int} :
    validTriple a r c = true ↔ (0 ≤ a ∧ a ≤ 0xFFFF) ∧ (0 ≤ r ∧ r ≤ 255) ∧ ∀ x, c = some x → 0 ≤ x ∧ x ≤ 255 := by
  cases c <;> simp [validTriple, and_assoc]

theorem compareOperand_of_false {s : State} (h : s.hasCmp = false) : compareOperand s = none := by simp [compareOperand, h]

theorem compareOperand_of_true {s : State} (h : s.hasCmp = true) : compareOperand s = some s.compareInt.toInt := by
  simp [compareOperand, h]

theorem execGgEnc_of_invalid {s : State} (h : validTriple s.address.toInt s.replacement.toInt (compareOperand s) = false) :
    execGgEnc s = raise .invalidArgument s := by
  simp [execGgEnc, encodeCode, h]

theorem execGgEnc_of_valid {s : State} (h : validTriple s.address.toInt s.replacement.toInt (compareOperand s) = true) :
    execGgEnc s = complete (.ggEnc (encodeTriple s.address.toInt s.replacement.toInt (compareOperand s))) s := by
  simp [execGgEnc, encodeCode, h]

theorem readLetters_six {code : Vector Byte 8} {n0 n1 n2 n3 n4 n5 : Nibble} (h0 : SpellsLetter code[0] n0) (h1 : SpellsLetter code[1] n1)
    (h2 : SpellsLetter code[2] n2) (h3 : SpellsLetter code[3] n3) (h4 : SpellsLetter code[4] n4) (h5 : SpellsLetter code[5] n5) :
    readLetters code 6 = some [n0, n1, n2, n3, n4, n5] := by
  rw [← letterValue_iff] at *
  refine readLetters_of_forall (n := [n0, n1, n2, n3, n4, n5]) (by simp) ?_
  intro ⟨i, hi⟩ hlt
  simp at hlt
  interval_cases i <;> assumption

theorem readLetters_eight {code : Vector Byte 8} {n0 n1 n2 n3 n4 n5 n6 n7 : Nibble} (h0 : SpellsLetter code[0] n0) (h1 : SpellsLetter code[1] n1)
    (h2 : SpellsLetter code[2] n2) (h3 : SpellsLetter code[3] n3) (h4 : SpellsLetter code[4] n4) (h5 : SpellsLetter code[5] n5)
    (h6 : SpellsLetter code[6] n6) (h7 : SpellsLetter code[7] n7) :
    readLetters code 8 = some [n0, n1, n2, n3, n4, n5, n6, n7] := by
  rw [← letterValue_iff] at *
  refine readLetters_of_forall (n := [n0, n1, n2, n3, n4, n5, n6, n7]) (by simp) ?_
  intro ⟨i, hi⟩ hlt
  interval_cases i <;> assumption

theorem decodeCode_six {len : Int} {code : Vector Byte 8} {n : List Nibble} (hl : len = 6) (h : readLetters code 6 = some n) :
    decodeCode len code = .ok (decodeLetters n 6) := by
  subst hl; simp only [decodeCode, codeLength, if_true, h]

theorem decodeCode_eight {len : Int} {code : Vector Byte 8} {n : List Nibble} (hl : len = 8) (h : readLetters code 8 = some n) :
    decodeCode len code = .ok (decodeLetters n 8) := by
  subst hl; have e : codeLength 8 = some 8 := by decide
  simp only [decodeCode, e, h]

end Sys2Proof.Machine
end

