-- ==== Sys2Proof/Laws/Header.lean ====
section
/-! SUPPORT. All that HDR.DEC and HDR.ENC do, and the header's fields by division and remainder (30_encoding.md R44). -/

namespace Sys2Proof.Machine

open Sys2Proof

/-! ### HDR.DEC -/

theorem hasMagic_iff {b : Vector Byte 16} : hasMagic b = true ↔ b[0] = 0x4E ∧ b[1] = 0x45 ∧ b[2] = 0x53 ∧ b[3] = 0x1A := by
  simp [hasMagic, magic]

/-- Bit `k` of a byte by division. -/
theorem bit_eq_div (b : Byte) (k : Nat) : b.getLsbD k = decide (b.toNat / 2 ^ k % 2 = 1) := by
  rw [BitVec.getLsbD, Nat.testBit_eq_decide_div_mod_eq]

/-- The fields by division and remainder, as R44's table places them. -/
theorem parseHeader_eq (b : Vector Byte 16) :
    parseHeader b =
      { prgSize := (if b[4].toNat = 0 then 256 else b[4].toNat) * 16384
        chrSize := b[5].toNat * 8192
        trainerSize := if b[6].toNat / 4 % 2 = 1 then 512 else 0
        mirroring := if b[6].toNat / 8 % 2 = 1 then .fourScreen else if b[6].toNat % 2 = 1 then .vertical else .horizontal
        extraRam := decide (b[6].toNat / 2 % 2 = 1)
        mapper := b[7].toNat / 16 * 16 + b[6].toNat / 16 } := by
  have hz : (b[4] = 0) ↔ b[4].toNat = 0 := by rw [← BitVec.toNat_inj]; rfl
  have hm : ((b[7] >>> 4) <<< 4 ||| b[6] >>> 4).toNat = b[7].toNat / 16 * 16 + b[6].toNat / 16 := by
    have h7 := b[7].isLt
    have h6 := b[6].isLt
    simp only [BitVec.toNat_or, BitVec.toNat_shiftLeft, BitVec.toNat_ushiftRight, Nat.shiftRight_eq_div_pow, Nat.shiftLeft_eq]
    rw [Nat.mod_eq_of_lt (by omega), Nat.mul_comm, ← Nat.two_pow_add_eq_or_of_lt (by omega)]
  simp only [parseHeader, parseMirroring, prgUnit, chrUnit, trainerLen, prgUnitsMax, hz, hm, bit_eq_div, decide_eq_true_eq, Nat.pow_zero,
    Nat.div_one, Nat.pow_one, Nat.reducePow]

/-- R17's bounds of the parsed fields. -/
theorem parseHeader_bounds (b : Vector Byte 16) :
    16384 ≤ (parseHeader b).prgSize ∧ (parseHeader b).prgSize ≤ 4194304 ∧ (parseHeader b).prgSize % 16384 = 0 ∧
    (parseHeader b).chrSize ≤ 2088960 ∧ (parseHeader b).chrSize % 8192 = 0 ∧
    ((parseHeader b).trainerSize = 0 ∨ (parseHeader b).trainerSize = 512) ∧ (parseHeader b).mapper ≤ 255 := by
  have h4 := b[4].isLt
  have h5 := b[5].isLt
  have h6 := b[6].isLt
  have h7 := b[7].isLt
  rw [parseHeader_eq]
  refine ⟨?_, ?_, ?_, ?_, ?_, ?_, ?_⟩
  · dsimp only; split <;> omega
  · dsimp only; split <;> omega
  · dsimp only; split <;> omega
  · dsimp only; omega
  · dsimp only; omega
  · dsimp only; split <;> simp
  · dsimp only; omega

/-- All that HDR.DEC does. -/
theorem execHdrDec_cases (s : State) :
    (s.avail.toInt < 16 ∧ execHdrDec s = raise .tooShort s) ∨
    (16 ≤ s.avail.toInt ∧ hasMagic s.hdrBuf = false ∧ execHdrDec s = raise .badMagic s) ∨
    (16 ≤ s.avail.toInt ∧ hasMagic s.hdrBuf = true ∧ s.fileLen.toInt < requiredLength (parseHeader s.hdrBuf) ∧
      execHdrDec s = raise .truncated s) ∨
    (16 ≤ s.avail.toInt ∧ hasMagic s.hdrBuf = true ∧ requiredLength (parseHeader s.hdrBuf) ≤ s.fileLen.toInt ∧
      execHdrDec s = complete (.hdrDec (headerResult (parseHeader s.hdrBuf))) s) := by
  unfold execHdrDec readHeader
  simp only [hdrLen, Nat.cast_ofNat]
  by_cases h1 : s.avail.toInt < 16
  · simp [h1]
  · by_cases h2 : hasMagic s.hdrBuf = true
    · by_cases h3 : (requiredLength (parseHeader s.hdrBuf) : Int) > s.fileLen.toInt
      · simp [h1, h2, h3]; omega
      · simp [h1, h2, h3]; omega
    · simp [h1, h2]; omega

/-! ### HDR.ENC -/

/-- All that HDR.ENC does. -/
theorem execHdrEnc_cases (s : State) :
    (s.mirr = 3 ∧ execHdrEnc s = .refused .mirrCodeReserved) ∨
    (∃ m, mirrOfCode s.mirr = some m ∧
      ((validPrgSize s.prgSize.toInt = false ∧ execHdrEnc s = raise .invalidPrgSize s) ∨
       (validPrgSize s.prgSize.toInt = true ∧ validChrSize s.chrSize.toInt = false ∧ execHdrEnc s = raise .invalidChrSize s) ∨
       (validPrgSize s.prgSize.toInt = true ∧ validChrSize s.chrSize.toInt = true ∧ validMapper s.mapper.toInt = false ∧
         execHdrEnc s = raise .invalidMapper s) ∨
       (validPrgSize s.prgSize.toInt = true ∧ validChrSize s.chrSize.toInt = true ∧ validMapper s.mapper.toInt = true ∧
         execHdrEnc s = complete (.hdrEnc (packHeader s.prgSize.toInt s.chrSize.toInt s.mapper.toInt m s.xram)) s))) := by
  unfold execHdrEnc
  cases hm : mirrOfCode s.mirr with
  | none => exact .inl ⟨mirrOfCode_none_iff.1 hm, rfl⟩
  | some m =>
    right
    refine ⟨m, rfl, ?_⟩
    cases validPrgSize s.prgSize.toInt <;> cases validChrSize s.chrSize.toInt <;> cases validMapper s.mapper.toInt <;> simp

/-- The packed bytes of legal operands, each field by division and remainder (R69). -/
theorem packHeader_eq {u c m : Nat} (hm : m ≤ 255) (r : Mirroring) (x : Bool) :
    packHeader (u * 16384) (c * 8192) m r x =
      #v[0x4E, 0x45, 0x53, 0x1A, BitVec.ofNat 8 (u % 256), BitVec.ofNat 8 c,
         BitVec.ofNat 8 (m % 16 * 16 + (if r = .fourScreen then 8 else 0) + (if x then 2 else 0) + (if r = .vertical then 1 else 0)),
         BitVec.ofNat 8 (m / 16 * 16), 0, 0, 0, 0, 0, 0, 0, 0] := by
  have e4 : BitVec.ofInt 8 ((u : Int) * 16384 / prgUnit % 256) = BitVec.ofNat 8 (u % 256) := by
    rw [show ((u : Int) * 16384 / prgUnit % 256) = ((u % 256 : Nat) : Int) by simp only [prgUnit]; omega, BitVec.ofInt_natCast]
  have e5 : BitVec.ofInt 8 ((c : Int) * 8192 / chrUnit) = BitVec.ofNat 8 c := by
    rw [show ((c : Int) * 8192 / chrUnit) = (c : Int) by simp only [chrUnit]; omega, BitVec.ofInt_natCast]
  have eb : ∀ n : Nat, n < 256 → (BitVec.ofNat 8 n).toNat = n := fun n hn => by simp [Nat.mod_eq_of_lt hn]
  have e7 : (BitVec.ofNat 8 m >>> 4) <<< 4 = BitVec.ofNat 8 (m / 16 * 16) := by
    apply BitVec.eq_of_toNat_eq
    simp only [BitVec.toNat_shiftLeft, BitVec.toNat_ushiftRight, BitVec.toNat_ofNat, Nat.shiftRight_eq_div_pow, Nat.shiftLeft_eq]
    omega
  have e6 : packByte6 (BitVec.ofNat 8 m) r x =
      BitVec.ofNat 8 (m % 16 * 16 + (if r = .fourScreen then 8 else 0) + (if x then 2 else 0) + (if r = .vertical then 1 else 0)) := by
    have hsh : (BitVec.ofNat 8 m <<< 4) = BitVec.ofNat 8 (m % 16) <<< 4 := by
      apply BitVec.eq_of_toNat_eq
      simp only [BitVec.toNat_shiftLeft, BitVec.toNat_ofNat, Nat.shiftLeft_eq]
      omega
    have hall : ∀ k : Fin 16, packByte6 (BitVec.ofNat 8 k) r x = BitVec.ofNat 8 (k * 16 +
        (if r = .fourScreen then 8 else 0) + (if x then 2 else 0) + (if r = .vertical then 1 else 0)) := by
      cases r <;> cases x <;> decide
    have := hall ⟨m % 16, Nat.mod_lt _ (by decide)⟩
    rw [← this]; unfold packByte6; rw [hsh]
  simp only [packHeader, e4, e5, e7, e6, BitVec.ofInt_natCast]

/-- Byte 6 of an encoded header in numbers (R69). -/
def packedByte6 (m : Nat) (r : Mirroring) (x : Bool) : Nat :=
  m % 16 * 16 + (if r = .fourScreen then 8 else 0) + (if x then 2 else 0) + (if r = .vertical then 1 else 0)

theorem packedByte6_fields (m : Nat) (r : Mirroring) (x : Bool) :
    packedByte6 m r x < 256 ∧ packedByte6 m r x / 16 = m % 16 ∧ packedByte6 m r x / 8 % 2 = (if r = .fourScreen then 1 else 0) ∧
    packedByte6 m r x / 4 % 2 = 0 ∧ packedByte6 m r x / 2 % 2 = (if x then 1 else 0) ∧
    packedByte6 m r x % 2 = (if r = .vertical then 1 else 0) := by
  cases r <;> cases x <;> simp only [packedByte6, reduceCtorEq, if_true, if_false, Bool.false_eq_true] <;> omega

/-- Parsing packed bytes gives the packed fields back, with no trainer (R65, R69). -/
theorem parseHeader_packHeader {u c m : Nat} (hu1 : 1 ≤ u) (hu : u ≤ 256) (hc : c ≤ 255) (hm : m ≤ 255) (r : Mirroring) (x : Bool) :
    hasMagic (packHeader (u * 16384) (c * 8192) m r x) = true ∧
    parseHeader (packHeader (u * 16384) (c * 8192) m r x) = ⟨u * 16384, c * 8192, 0, r, x, m⟩ := by
  obtain ⟨hlt, h16, h8, h4, h2, h1⟩ := packedByte6_fields m r x
  rw [packHeader_eq hm]
  refine ⟨rfl, ?_⟩
  rw [parseHeader_eq]
  simp only [Vector.getElem_mk, List.getElem_toArray, List.getElem_cons_succ, List.getElem_cons_zero, BitVec.toNat_ofNat]
  rw [show (m % 16 * 16 + (if r = .fourScreen then 8 else 0) + (if x then 2 else 0) + (if r = .vertical then 1 else 0)) % 2 ^ 8 =
    packedByte6 m r x from Nat.mod_eq_of_lt hlt, h16, h8, h4, h2, h1, HeaderFields.mk.injEq]
  refine ⟨?_, by omega, rfl, ?_, ?_, by omega⟩
  · split <;> omega
  · cases r <;> rfl
  · cases x <;> rfl

end Sys2Proof.Machine
end

