-- ==== Sys2Proof/Laws/PerInstr.lean ====
section
/-! SUPPORT. Statements made of every operation as syntax, one lemma per constructor: its word is one byte whose four high bits are 0, and
decoding that word gives the operation back (30_encoding.md R58). -/

namespace Sys2Proof.Laws.RoundTrip

open Sys2Proof

/-- The operation is well formed, its code lies in the byte's low nibble and selects an operation, and its word decodes to it. -/
def Statement (i : Instr) : Prop :=
  i.wellFormed = true ∧ opSelectsOperation (opCode i) = true ∧ (∀ b ∈ encode i, byteCarriesOp b = true) ∧
    decode (encode i) = .ok (i, [])

theorem hdrDec : Statement .hdrDec := ⟨by decide, by decide, by decide, rfl⟩
theorem hdrEnc : Statement .hdrEnc := ⟨by decide, by decide, by decide, rfl⟩
theorem bankMin : Statement .bankMin := ⟨by decide, by decide, by decide, rfl⟩
theorem bankMinc : Statement .bankMinc := ⟨by decide, by decide, by decide, rfl⟩
theorem bankIssw : Statement .bankIssw := ⟨by decide, by decide, by decide, rfl⟩
theorem bankP2c : Statement .bankP2c := ⟨by decide, by decide, by decide, rfl⟩
theorem bankC2p : Statement .bankC2p := ⟨by decide, by decide, by decide, rfl⟩
theorem bankC2pf : Statement .bankC2pf := ⟨by decide, by decide, by decide, rfl⟩
theorem ggDec : Statement .ggDec := ⟨by decide, by decide, by decide, rfl⟩
theorem ggEnc : Statement .ggEnc := ⟨by decide, by decide, by decide, rfl⟩
theorem tileDec : Statement .tileDec := ⟨by decide, by decide, by decide, rfl⟩
theorem tileEnc : Statement .tileEnc := ⟨by decide, by decide, by decide, rfl⟩

end Sys2Proof.Laws.RoundTrip
end

