-- ==== Sys2Proof/Laws/Step.lean ====
section
/-! SUPPORT. What decoding the operation-select port gives, and how an operation can end: with an answer, or refused. -/

namespace Sys2Proof.Machine

open Sys2Proof

/-- R58's table read from a code and back. -/
theorem decodeOp_opCode (i : Instr) : decodeOp (opCode i) = .ok i := by cases i <;> rfl

/-- A code that selects an operation is that operation's. -/
theorem eq_opCode_of_decodeOp : ∀ (op : BitVec 4) (i : Instr), decodeOp op = .ok i → op = opCode i := by
  intro op i h
  have : ∀ op : BitVec 4, (match decodeOp op with | .ok i => decide (op = opCode i) | .error _ => true) = true := by decide
  have := this op
  rw [h] at this; simpa using this

/-- What the decoder reads from the port. -/
theorem decode_fetch (s : State) : decode (fetch s) = match decodeOp s.op with | .ok i => .ok (i, []) | .error r => .error r := by
  have h : byteCarriesOp (s.op.setWidth 8) = true := by simp only [byteCarriesOp, decide_eq_true_eq, BitVec.toNat_setWidth]; have := s.op.isLt; omega
  have e : (s.op.setWidth 8).setWidth 4 = s.op := by apply BitVec.eq_of_toNat_eq; simp only [BitVec.toNat_setWidth]; have := s.op.isLt; omega
  simp only [decode, fetch, h, e, if_true] <;> cases decodeOp s.op <;> rfl

/-- An operation ends with an answer and no other change, or is refused. -/
theorem exec_cases (i : Instr) (s : State) : (∃ a, exec i s = .next (s.setAnswer a)) ∨ ∃ r, exec i s = .refused r := by
  cases i
  · rcases execHdrDec_cases s with ⟨_, h⟩ | ⟨_, _, h⟩ | ⟨_, _, _, h⟩ | ⟨_, _, _, h⟩ <;> exact .inl ⟨_, h⟩
  · rcases execHdrEnc_cases s with ⟨_, h⟩ | ⟨m, _, h | h | h | h⟩
    · exact .inr ⟨_, h⟩
    · exact .inl ⟨_, h.2⟩
    · exact .inl ⟨_, h.2.2⟩
    · exact .inl ⟨_, h.2.2.2⟩
    · exact .inl ⟨_, h.2.2.2⟩
  · exact .inl ⟨_, rfl⟩
  · exact .inl ⟨_, rfl⟩
  · exact .inl ⟨_, rfl⟩
  · rcases execBankP2c_cases s with ⟨_, h⟩ | ⟨_, _, h⟩ <;> exact .inl ⟨_, h⟩
  · rcases execBankC2p_cases s with ⟨_, h⟩ | ⟨_, h⟩ <;> exact .inl ⟨_, h⟩
  · rcases execBankC2pf_cases s with ⟨_, h⟩ | ⟨_, _, h⟩ | ⟨_, _, h⟩
    · exact .inl ⟨_, h⟩
    · exact .inr ⟨_, h⟩
    · exact .inl ⟨_, h⟩
  · cases h : decodeCode s.len.toInt s.code with
    | error e => exact .inl ⟨_, execGgDec_of_error h⟩
    | ok t => exact .inl ⟨_, execGgDec_of_ok h⟩
  · cases h : validTriple s.address.toInt s.replacement.toInt (compareOperand s) with
    | false => exact .inl ⟨_, execGgEnc_of_invalid h⟩
    | true => exact .inl ⟨_, execGgEnc_of_valid h⟩
  · exact .inl ⟨_, rfl⟩
  · exact .inl ⟨_, rfl⟩

theorem exec_next {i : Instr} {s t : State} (h : exec i s = .next t) : ∃ a, t = s.setAnswer a := by
  rcases exec_cases i s with ⟨a, e⟩ | ⟨r, e⟩
  · rw [e] at h; injection h with h; exact ⟨a, h.symm⟩
  · rw [e] at h; cases h

end Sys2Proof.Machine
end

