-- ==== Sys2Proof/Laws/Tile.lean ====
section
/-! SUPPORT. Pixels and plane bytes in numbers (43_tile_codec.md R97, R99). -/

namespace Sys2Proof.Machine

open Sys2Proof

/-- A pixel in numbers (R97). -/
theorem slicePixel_toNat (lo hi : Byte) (i : Nat) :
    (slicePixel lo hi i).toNat = hi.toNat / 2 ^ (7 - i) % 2 * 2 + lo.toNat / 2 ^ (7 - i) % 2 := by
  have hb : ∀ a b : Bool, (((BitVec.ofBool a).setWidth 2 <<< 1) ||| (BitVec.ofBool b).setWidth 2 : BitVec 2).toNat =
      a.toNat * 2 + b.toNat := by decide
  have ht : ∀ x : Byte, (x.getLsbD (7 - i)).toNat = x.toNat / 2 ^ (7 - i) % 2 := fun x => by
    rw [bit_eq_div]
    rcases Nat.mod_two_eq_zero_or_one (x.toNat / 2 ^ (7 - i)) with h | h <;> simp [h]
  rw [slicePixel, hb, ht, ht]

theorem decodeSlice_get (lo hi : Byte) (i : Fin 8) : (decodeSlice lo hi)[i] = slicePixel lo hi i.val := by
  simp [decodeSlice]

/-- One pass of the loop of R99 in numbers. -/
theorem shiftIn_toNat (acc : Byte) (b : Bool) : ((acc <<< 1) ||| (BitVec.ofBool b).setWidth 8).toNat = acc.toNat * 2 % 256 + b.toNat := by
  have h : ((BitVec.ofBool b).setWidth 8).toNat = b.toNat := by cases b <;> rfl
  have hb : b.toNat < 2 := by cases b <;> decide
  rw [BitVec.toNat_or, BitVec.toNat_shiftLeft, h, Nat.shiftLeft_eq]
  have e : acc.toNat * 2 ^ 1 % 2 ^ 8 = 2 ^ 1 * (acc.toNat % 128) := by omega
  rw [e, ← Nat.two_pow_add_eq_or_of_lt (by omega)]
  omega

/-- A plane byte in numbers: pixel `i` gives the bit of weight `2^(7 − i)` (R99). -/
theorem encodePlane_toNat (plane : Nat) (px : Vector Pixel 8) :
    (encodePlane plane px).toNat = (px[0].getLsbD plane).toNat * 128 + (px[1].getLsbD plane).toNat * 64 + (px[2].getLsbD plane).toNat * 32 +
      (px[3].getLsbD plane).toNat * 16 + (px[4].getLsbD plane).toNat * 8 + (px[5].getLsbD plane).toNat * 4 +
      (px[6].getLsbD plane).toNat * 2 + (px[7].getLsbD plane).toNat := by
  have hl : px.toList = [px[0], px[1], px[2], px[3], px[4], px[5], px[6], px[7]] := by
    apply List.ext_getElem (by simp)
    intro i h1 h2
    have : i < 8 := by simpa using h1
    interval_cases i <;> simp
  have hb : ∀ b : Bool, b.toNat < 2 := by decide
  rw [encodePlane, hl]
  simp only [List.foldl_cons, List.foldl_nil, shiftIn_toNat]
  have := hb (px[0].getLsbD plane); have := hb (px[1].getLsbD plane); have := hb (px[2].getLsbD plane); have := hb (px[3].getLsbD plane)
  have := hb (px[4].getLsbD plane); have := hb (px[5].getLsbD plane); have := hb (px[6].getLsbD plane); have := hb (px[7].getLsbD plane)
  simp
  omega

/-- Each bit of a plane byte is that bit of its pixel (R99). -/
theorem encodePlane_bit (plane : Nat) (px : Vector Pixel 8) (i : Fin 8) :
    (encodePlane plane px).toNat / 2 ^ (7 - i.val) % 2 = (px[i].getLsbD plane).toNat := by
  have hb : ∀ b : Bool, b.toNat < 2 := by decide
  have := hb (px[0].getLsbD plane); have := hb (px[1].getLsbD plane); have := hb (px[2].getLsbD plane); have := hb (px[3].getLsbD plane)
  have := hb (px[4].getLsbD plane); have := hb (px[5].getLsbD plane); have := hb (px[6].getLsbD plane); have := hb (px[7].getLsbD plane)
  rw [encodePlane_toNat]
  fin_cases i <;> simp <;> omega

theorem pixel_low : ∀ p : Pixel, (p.getLsbD 0).toNat = p.toNat % 2 := by decide
theorem pixel_high : ∀ p : Pixel, (p.getLsbD 1).toNat = p.toNat / 2 := by decide

end Sys2Proof.Machine
end

