-- ==== Sys2Proof/Machine/Text.lean ====
section
/-! DEFINITION. The textual syntax of 30_encoding.md R61, in which the spec writes its test vectors: mnemonics, operands in the order of R58,
results. A text is a list of characters. R61 leaves the radix of an integer open; the model writes decimal (log 22). No operation
reads or writes a text. -/

namespace Sys2Proof.Machine

open Sys2Proof

/-- The mnemonic of an operation (R7). -/
def mnemonic : Instr → String
  | .hdrDec   => "HDR.DEC"
  | .hdrEnc   => "HDR.ENC"
  | .bankMin  => "BANK.MIN"
  | .bankMinc => "BANK.MINC"
  | .bankIssw => "BANK.ISSW"
  | .bankP2c  => "BANK.P2C"
  | .bankC2p  => "BANK.C2P"
  | .bankC2pf => "BANK.C2PF"
  | .ggDec    => "GG.DEC"
  | .ggEnc    => "GG.ENC"
  | .tileDec  => "TILE.DEC"
  | .tileEnc  => "TILE.ENC"

/-- The name of an error kind (R60). -/
def kindName : ErrorKind → String
  | .badMagic          => "BadMagic"
  | .tooShort          => "TooShort"
  | .truncated         => "Truncated"
  | .invalidPrgSize    => "InvalidPrgSize"
  | .invalidChrSize    => "InvalidChrSize"
  | .invalidMapper     => "InvalidMapper"
  | .invalidCode       => "InvalidCode"
  | .invalidArgument   => "InvalidArgument"
  | .addressOutOfRange => "AddressOutOfRange"

abbrev Text := List Char

/-- "integers in decimal" -/
def textInt (v : Int) : Text := if v < 0 then '-' :: Nat.toDigits 10 v.natAbs else Nat.toDigits 10 v.natAbs

/-- The hexadecimal digits, upper case. -/
def hexDigits : List Char := "0123456789ABCDEF".toList

/-- "bytes as two hexadecimal digits" -/
def textByte (b : Byte) : Text := [hexDigits.getD (b.toNat / 16) '0', hexDigits.getD (b.toNat % 16) '0']

/-- "a boolean as `0` or `1`" -/
def textBool (b : Bool) : Text := [if b then '1' else '0']

/-- "a mirroring kind as `H`, `V` or `F`"; `?` for code 3, which names none (R50). -/
def textMirr (c : BitVec 2) : Text :=
  match mirrOfCode c with
  | some .horizontal => ['H']
  | some .vertical   => ['V']
  | some .fourScreen => ['F']
  | none             => ['?']

/-- "a Game Genie code in double quotes" -/
def textCode (c : List Byte) : Text := '"' :: c.map (fun b => Char.ofNat b.toNat) ++ ['"']

/-- Texts with a separator between them. -/
def joinText (sep : Text) : List Text → Text
  | []      => []
  | [t]     => t
  | t :: ts => t ++ sep ++ joinText sep ts

/-- Operands and results stand one after another with a comma between. -/
def textList (l : List Text) : Text := joinText [',', ' '] l

/-- "eight comma-separated digits 0 to 3 in square brackets" -/
def textPixels (px : Vector Pixel 8) : Text :=
  '[' :: joinText [','] (px.toList.map fun p => textInt p.toNat) ++ [']']

/-- "a sequence result in square brackets" -/
def textSequence (l : List IntPort) : Text := '[' :: textList (l.map fun a => textInt a.toInt) ++ [']']

/-- "a compare value … as the byte when present and `-` when absent" -/
def textCompare : Option IntPort → Text
  | none   => ['-']
  | some c => textInt c.toInt

/-- The operands of an operation in the order of R58; a bound buffer is left out of the line. -/
def operandTexts (i : Instr) (s : State) : List Text :=
  match i with
  | .hdrDec   => [textInt s.avail.toInt, textInt s.fileLen.toInt]
  | .hdrEnc   => [textInt s.prgSize.toInt, textInt s.chrSize.toInt, textInt s.mapper.toInt, textMirr s.mirr, textBool s.xram]
  | .bankMin  => [textInt s.mapper.toInt]
  | .bankMinc => [textInt s.prgSize.toInt, textInt s.mapper.toInt]
  | .bankIssw => [textInt s.prgSize.toInt, textInt s.mapper.toInt]
  | .bankP2c  => [textInt s.prgAddr.toInt, textInt s.bankSize.toInt]
  | .bankC2p  => [textInt s.cpuAddr.toInt, textInt s.bankSize.toInt, textInt s.prgSize.toInt]
  | .bankC2pf => [textInt s.cpuAddr.toInt, textInt s.bankSize.toInt, textInt s.prgSize.toInt, textByte s.compareByte]
  | .ggDec    => [textCode (s.code.toList.take s.len.toInt.toNat)]
  | .ggEnc    => [textInt s.address.toInt, textInt s.replacement.toInt, textCompare (if s.hasCmp then some s.compareInt else none)]
  | .tileDec  => [textByte s.lo, textByte s.hi]
  | .tileEnc  => [textPixels s.px]

/-- The results in the order of R58. -/
def resultText : Result → Text
  | .hdrDec h     => textList [textInt h.trainerStart.toInt, textInt h.trainerSize.toInt, textInt h.prgStart.toInt, textInt h.prgSize.toInt,
      textInt h.chrStart.toInt, textInt h.chrSize.toInt, textInt h.mapper.toInt, textMirr h.mirr, textBool h.xram]
  | .hdrEnc b     => joinText [' '] (b.toList.map textByte)
  | .bankMin z u  => textList [textInt z.toInt, textBool u]
  | .bankMinc z u => textList [textInt z.toInt, textBool u]
  | .bankIssw w u => textList [textBool w, textBool u]
  | .bankP2c l    => textSequence l
  | .bankC2p l    => textSequence l
  | .bankC2pf l   => textSequence l
  | .ggDec t      => textList [textInt t.len, textInt t.address.toInt, textInt t.replacement.toInt, textCompare t.compare]
  | .ggEnc c      => textList [textInt c.length, textCode c]
  | .tileDec px   => textPixels px
  | .tileEnc lo hi => joinText [' '] [textByte lo, textByte hi]

/-- "A result is either the results in the order of rule R58, or `!Kind` for an error status." -/
def answerText : Answer → Text
  | .error e => '!' :: (kindName e).toList
  | .ok r    => resultText r

/-- `MNEMONIC operand, operand, … -> result` (R61). -/
def operationText (i : Instr) (s : State) (a : Answer) : Text :=
  (mnemonic i).toList ++ [' '] ++ textList (operandTexts i s) ++ " -> ".toList ++ answerText a

end Sys2Proof.Machine
end

