-- ==== Sys2Proof/Tests/Slice0.lean ====
section
/-! SUPPORT. The model's own tests: ill-formed terms that the checks refuse, the words of every row, vectors of 95_test_vectors.md (at most two
an operation), and for every obligation with hypotheses a witness that meets them. -/

namespace Sys2Proof.Tests

open Sys2Proof Sys2Proof.Machine

/-! ### Ill-formed terms -/

theorem test_byte_above_four_bits_refused : byteCarriesOp 0x10 = false := by decide
theorem test_byte_above_four_bits_decodes_to_nothing : decode [0x10] = .error (.notFourBits 0x10) := rfl
theorem test_no_byte_decodes_to_nothing : decode [] = .error .noByte := rfl
theorem test_reserved_op_refused : opSelectsOperation 12 = false ∧ opSelectsOperation 15 = false := by decide
theorem test_reserved_word_decodes_to_nothing : decodeTableWord 8 12 = none ∧ decodeTableWord 8 15 = none := by decide
theorem test_memory_out_of_order_refused : ¬ (Memory.mk 4 [(2, 1), (1, 1)]).wf := by decide
theorem test_memory_with_unlisted_byte_refused : ¬ (Memory.mk 4 [(2, 0)]).wf := by decide
theorem test_memory_beyond_its_size_refused : ¬ (Memory.mk 4 [(4, 1)]).wf := by decide
theorem test_table_with_two_sizes_for_a_key_refused : ¬ mapperTableWf [(1, .kib16), (1, .kib8)] := by decide

/-! ### The words of 30_encoding.md R58, bit by bit -/

theorem test_decode_hdr_dec : decode [0b00000000] = .ok (.hdrDec, []) := rfl
theorem test_decode_hdr_enc : decode [0b00000001] = .ok (.hdrEnc, []) := rfl
theorem test_decode_bank_min : decode [0b00000010] = .ok (.bankMin, []) := rfl
theorem test_decode_bank_minc : decode [0b00000011] = .ok (.bankMinc, []) := rfl
theorem test_decode_bank_issw : decode [0b00000100] = .ok (.bankIssw, []) := rfl
theorem test_decode_bank_p2c : decode [0b00000101] = .ok (.bankP2c, []) := rfl
theorem test_decode_bank_c2p : decode [0b00000110] = .ok (.bankC2p, []) := rfl
theorem test_decode_bank_c2pf : decode [0b00000111] = .ok (.bankC2pf, []) := rfl
theorem test_decode_gg_dec : decode [0b00001000] = .ok (.ggDec, []) := rfl
theorem test_decode_gg_enc : decode [0b00001001] = .ok (.ggEnc, []) := rfl
theorem test_decode_tile_dec : decode [0b00001010] = .ok (.tileDec, []) := rfl
theorem test_decode_tile_enc : decode [0b00001011, 0xFF] = .ok (.tileEnc, [0xFF]) := rfl

/-! ### Small states -/

/-- The fixture table of 95_test_vectors.md. -/
def fixtureTable : MapperTable := [(0, .kib32), (1, .kib16), (4, .kib8)]

def base : State := { State.reset with mapperTable := fixtureTable }

/-- What a step answers. -/
def answerOf : Host.Outcome State Fault Refusal → Option Answer
  | .next t => t.answer
  | _ => none

/-- The refusal a step ends with. -/
def refusalOf : Host.Outcome State Fault Refusal → Option Refusal
  | .refused r => some r
  | _ => none

/-- "MAGIC", bytes 4 to 7 as given, bytes 8 to 15 zero. -/
def headerBytes (b4 b5 b6 b7 : Byte) : Vector Byte 16 := #v[0x4E, 0x45, 0x53, 0x1A, b4, b5, b6, b7, 0, 0, 0, 0, 0, 0, 0, 0]

def hdrDecState (buf : Vector Byte 16) (avail fileLen : IntPort) : State := { base with hdrBuf := buf, avail := avail, fileLen := fileLen }

def hdrEncState (prg chr mapper : IntPort) (mirr : BitVec 2) (xram : Bool) : State :=
  { base with op := 1, prgSize := prg, chrSize := chr, mapper := mapper, mirr := mirr, xram := xram }

def p2cState (prgAddr bank : IntPort) : State := { base with op := 5, prgAddr := prgAddr, bankSize := bank }

def c2pState (cpuAddr bank prg : IntPort) : State := { base with op := 6, cpuAddr := cpuAddr, bankSize := bank, prgSize := prg }

/-- The buffer of 95_test_vectors.md section 2.2: `PRG[0x11D9]` = 0xAD, every other byte 0x00. -/
def prgBuffer : Memory := (Memory.blank 32768).write 0x11D9 0xAD

def c2pfState (cpuAddr bank prg : IntPort) (compare : Byte) : State :=
  { c2pState cpuAddr bank prg with op := 7, compareByte := compare, prg := prgBuffer }

def ggDecState (len : IntPort) (code : Vector Byte 8) : State := { base with op := 8, len := len, code := code }

def ggEncState (address replacement : IntPort) (hasCmp : Bool) (compare : IntPort) : State :=
  { base with op := 9, address := address, replacement := replacement, hasCmp := hasCmp, compareInt := compare }

def tileDecState (lo hi : Byte) : State := { base with op := 10, lo := lo, hi := hi }

def tileEncState (px : Vector Pixel 8) : State := { base with op := 11, px := px }

/-- `SXIOPO` and `sxiopo`. -/
def sxiopo : Vector Byte 8 := #v[0x53, 0x58, 0x49, 0x4F, 0x50, 0x4F, 0, 0]
def sxiopoLower : Vector Byte 8 := #v[0x73, 0x78, 0x69, 0x6F, 0x70, 0x6F, 0, 0]
/-- `SXSOPOSU`. -/
def sxsoposu : Vector Byte 8 := #v[0x53, 0x58, 0x53, 0x4F, 0x50, 0x4F, 0x53, 0x55]

/-! ### Vectors of 95_test_vectors.md -/

/-- Section 2.1, every field at its maximum, reserved bits and bytes set and ignored. -/
theorem test_hdr_dec_maximum : answerOf (exec .hdrDec (hdrDecState
    #v[0x4E, 0x45, 0x53, 0x1A, 0, 0xFF, 0xFF, 0xFF, 0xAA, 0xAA, 0xAA, 0xAA, 0xAA, 0xAA, 0xAA, 0xAA] 16 6283792)) =
    some (.ok (.hdrDec ⟨16, 512, 528, 4194304, 4194832, 2088960, 255, 2, true⟩)) := by decide

/-- Section 2.1, one byte short. -/
theorem test_hdr_dec_truncated : answerOf (exec .hdrDec (hdrDecState (headerBytes 2 0 0 0) 16 32783)) = some (.error .truncated) := by decide

/-- Section 2.1, mapper 0xA5. -/
theorem test_hdr_enc_nibbles : answerOf (exec .hdrEnc (hdrEncState 524288 262144 0xA5 1 false)) =
    some (.ok (.hdrEnc (headerBytes 0x20 0x20 0x51 0xA0))) := by decide

/-- Section 2.1, two invalid operands. -/
theorem test_hdr_enc_priority : answerOf (exec .hdrEnc (hdrEncState 16384 1 999 0 false)) = some (.error .invalidChrSize) := by decide

/-- Section 2.2. -/
theorem test_bank_min_known : answerOf (exec .bankMin { base with mapper := 1 }) = some (.ok (.bankMin 16384 false)) := by decide
theorem test_bank_min_unknown : answerOf (exec .bankMin { base with mapper := 9999 }) = some (.ok (.bankMin 8192 true)) := by decide
theorem test_bank_minc_clamped : answerOf (exec .bankMinc { base with mapper := 0, prgSize := 16384 }) =
    some (.ok (.bankMinc 16384 false)) := by decide
theorem test_bank_minc_unchecked : answerOf (exec .bankMinc { base with mapper := 9999, prgSize := 4096 }) =
    some (.ok (.bankMinc 4096 true)) := by decide
theorem test_bank_issw_strict : answerOf (exec .bankIssw { base with mapper := 0, prgSize := 32768 }) =
    some (.ok (.bankIssw false false)) := by decide
theorem test_bank_issw_above : answerOf (exec .bankIssw { base with mapper := 0, prgSize := 32769 }) =
    some (.ok (.bankIssw true false)) := by decide
theorem test_bank_p2c_slots : answerOf (exec .bankP2c (p2cState 0x1234 8192)) =
    some (.ok (.bankP2c [0x9234, 0xB234, 0xD234, 0xF234])) := by decide
theorem test_bank_p2c_bank_size : answerOf (exec .bankP2c (p2cState 5 12288)) = some (.error .addressOutOfRange) := by decide
theorem test_bank_c2p_partial_bank : answerOf (exec .bankC2p (c2pState 0x9234 8192 40000)) =
    some (.ok (.bankC2p [0x1234, 0x3234, 0x5234, 0x7234, 0x9234])) := by decide
theorem test_bank_c2p_empty : answerOf (exec .bankC2p (c2pState 0xFFFF 32768 16384)) = some (.ok (.bankC2p [])) := by decide
theorem test_bank_c2pf_match : answerOf (exec .bankC2pf (c2pfState 0x91D9 16384 32768 0xAD)) = some (.ok (.bankC2pf [0x11D9])) := by decide
/-- U11: one byte short of `PRGSIZE`, with both candidate bytes (0x11D9 and 0x51D9) there. -/
theorem test_bank_c2pf_short_buffer : refusalOf (exec .bankC2pf { c2pfState 0x91D9 16384 32768 0 with prg := Memory.blank 32767 }) =
    some .prgBufferShort := by decide

/-- Section 2.3. -/
theorem test_gg_dec_six : answerOf (exec .ggDec (ggDecState 6 sxiopoLower)) = some (.ok (.ggDec (.sixLetter 0x91D9 0xAD))) := by decide
theorem test_gg_dec_eight : answerOf (exec .ggDec (ggDecState 8 sxsoposu)) =
    some (.ok (.ggDec (.eightLetter 0x91D9 0xAD 0xBD))) := by decide
/-- `TILPGZ`. -/
theorem test_gg_enc_six : answerOf (exec .ggEnc (ggEncState 0x1234 0x56 false 256)) =
    some (.ok (.ggEnc [0x54, 0x49, 0x4C, 0x50, 0x47, 0x5A])) := by decide
/-- `ZKSKTEOP`. -/
theorem test_gg_enc_eight : answerOf (exec .ggEnc (ggEncState 0xC0DE 0x42 true 0x99)) =
    some (.ok (.ggEnc [0x5A, 0x4B, 0x53, 0x4B, 0x54, 0x45, 0x4F, 0x50])) := by decide
/-- `GOSSIP` becomes `GOISIP` (30_encoding.md R62). -/
theorem test_gg_canon : canonicalCode 6 #v[0x47, 0x4F, 0x53, 0x53, 0x49, 0x50, 0, 0] = .ok [0x47, 0x4F, 0x49, 0x53, 0x49, 0x50] := by rfl

/-- Section 2.4. -/
theorem test_tile_dec : answerOf (exec .tileDec (tileDecState 0x41 0xC2)) = some (.ok (.tileDec #v[2, 3, 0, 0, 0, 0, 2, 1])) := by decide
theorem test_tile_enc : answerOf (exec .tileEnc (tileEncState #v[0, 1, 2, 3, 3, 2, 1, 0])) = some (.ok (.tileEnc 0x5A 0x3C)) := by decide

/-- The example of 30_encoding.md R61, in decimal. -/
theorem test_text : operationText .bankP2c (p2cState 0 16384) (.ok (.bankP2c [0x8000, 0xC000])) =
    "BANK.P2C 0, 16384 -> [32768, 49152]".toList := by decide

/-- `UNKNOWN` and `COUNT` are read from the answer. -/
theorem test_count_and_unknown : (Answer.ok (.bankP2c [0x8000, 0xC000])).count = some 2 ∧ (Answer.ok (.bankMin 8192 true)).unknown = some true ∧
    (Answer.ok (.ggDec (.eightLetter 0x8000 0 0))).len = some 8 := by decide

/-- Presenting a word on the operation-select port makes the next step perform it. -/
theorem test_step_performs_presented_word : answerOf (step ((tileDecState 0xFF 0).withFetchWord 8 10)) =
    some (.ok (.tileDec #v[1, 1, 1, 1, 1, 1, 1, 1])) := by decide

/-! ### Witnesses: states and operands that meet the hypotheses of each obligation -/

theorem witness_DecodeAndEncodeAgree : decode [0x0B, 0xFF] = .ok (.tileEnc, [0xFF]) := rfl

theorem witness_ReservedCodesRefused : 12 ≤ ({ base with op := 12 } : State).op.toNat ∧ 12 ≤ ({ base with op := 15 } : State).op.toNat ∧
    ({ base with op := 11 } : State).op.toNat < 12 := by decide

theorem witness_StepPerformsSelectedOperation :
    decode (fetch (tileDecState 1 2)) = .ok (.tileDec, []) ∧ (tileDecState 1 2).op = opCode .tileDec := ⟨rfl, rfl⟩

theorem witness_OperationChangesOnlyTheAnswer : ∃ t, exec .tileDec (tileDecState 0 0) = .next t := ⟨_, rfl⟩

theorem witness_ErrorsHaveTheirExactCauses : ∃ t, exec .ggDec (ggDecState 7 sxiopo) = .next t ∧ t.answer = some (.error .invalidCode) :=
  ⟨_, rfl, rfl⟩

theorem witness_OperationsThatRaiseNothing : Instr.bankIssw ∈ [Instr.bankMin, .bankMinc, .bankIssw, .tileDec, .tileEnc] ∧
    (p2cState 0 32768).bankSize.toInt ∈ [8192, 16384, 32768] ∧ 0 ≤ (p2cState 0 32768).prgAddr.toInt ∧
    (0x8000 ≤ (c2pfState 0xFFFF 8192 32768 0).cpuAddr.toInt ∧ (c2pfState 0xFFFF 8192 32768 0).cpuAddr.toInt ≤ 0xFFFF) ∧
    (c2pfState 0xFFFF 8192 32768 0).bankSize.toInt ∈ [8192, 16384, 32768] ∧
    (c2pfState 0xFFFF 8192 32768 0).prgSize.toInt ≤ (c2pfState 0xFFFF 8192 32768 0).prg.size := by decide

/-- A failed operation, and the next one. -/
theorem witness_AnOperationLeavesNoTrace : ∃ t, exec .ggDec (ggDecState 7 sxiopo) = .next t ∧ t.answer = some (.error .invalidCode) :=
  ⟨_, rfl, rfl⟩

theorem witness_SameRequestSameAnswerAgain : ∃ t, step (ggDecState 7 sxiopo) = .next t := ⟨_, rfl⟩

/-- Two requests that agree on the operation's own ports and differ elsewhere. -/
theorem witness_OutcomeDependsOnOwnPorts : SameRequest .tileDec (tileDecState 1 2) { tileDecState 1 2 with mirr := 3 } ∧
    (∃ t, exec .tileDec (tileDecState 1 2) = .next t) := ⟨⟨rfl, rfl⟩, _, rfl⟩
theorem witness_OutcomeDependsOnOwnPorts_refused :
    SameRequest .hdrEnc (hdrEncState 0 0 0 3 false) { hdrEncState 0 0 0 3 false with lo := 1 } ∧
    (∃ r, exec .hdrEnc (hdrEncState 0 0 0 3 false) = .refused r) := ⟨⟨rfl, rfl, rfl, rfl, rfl⟩, _, rfl⟩
/-- Two buffers of at least `PRGSIZE` bytes, one longer. -/
theorem witness_OutcomeDependsOnOwnPorts_buffer : let s := c2pfState 0x91D9 16384 32768 0xAD
    SameRequest .bankC2pf s { s with prg := { prgBuffer with size := 32769 } } ∧ ∃ t, exec .bankC2pf s = .next t := by
  refine ⟨⟨rfl, rfl, rfl, rfl, by decide, fun _ p hp _ => ?_⟩, _, rfl⟩
  have h : p < 32768 := by have : (p : Int) < 32768 := hp; omega
  simp only [memRead, Memory.read, c2pfState, prgBuffer, Memory.write_size, Memory.blank]
  rw [if_pos h, if_pos (by omega)]

theorem witness_RefusalsAreTheTwoNamed : exec .hdrEnc (hdrEncState 0 0 0 3 false) = .refused .mirrCodeReserved ∧
    exec .bankC2pf { c2pfState 0x8000 8192 1 0 with prg := Memory.blank 0 } = .refused .prgBufferShort := ⟨rfl, by rfl⟩

theorem witness_StepAnswersUnderHostDuties : HostDutiesMet (c2pfState 0x91D9 16384 32768 0xAD) ∧ HostDutiesMet (hdrEncState 0 0 0 2 false) := by
  unfold HostDutiesMet; decide

theorem base_inv : Inv base := ⟨by decide, by decide, fun _ h => nomatch h⟩
theorem witness_StepKeepsInvariant : ∃ t, Inv base ∧ step base = .next t := ⟨_, base_inv, rfl⟩

/-- The four clauses: 15 bytes, a wrong magic, one byte short, exactly long enough. -/
theorem witness_HdrDecSteps : (hdrDecState (headerBytes 2 0 0 0) 15 15).avail.toInt < 16 ∧
    (16 ≤ (hdrDecState #v[0x4E, 0x45, 0x53, 0x1B, 2, 0, 0, 0, 0, 0, 0, 0, 0, 0, 0, 0] 16 16).avail.toInt ∧
      (hdrDecState #v[0x4E, 0x45, 0x53, 0x1B, 2, 0, 0, 0, 0, 0, 0, 0, 0, 0, 0, 0] 16 16).hdrBuf[3] ≠ 0x1A) ∧
    (16 : Int) + 0 + 32768 + 0 > (hdrDecState (headerBytes 2 0 0 0) 16 32783).fileLen.toInt ∧
    (16 : Int) + 0 + 32768 + 0 ≤ (hdrDecState (headerBytes 2 0 0 0) 16 32784).fileLen.toInt := by decide

theorem witness_DecodedHeaderIsConsistent : ∃ t h, exec .hdrDec (hdrDecState (headerBytes 2 0 0 0) 16 32784) = .next t ∧
    t.answer = some (.ok (.hdrDec h)) := ⟨_, _, rfl, rfl⟩

/-- The header of `test_hdr_dec_maximum` with other reserved bits. -/
theorem witness_ReservedHeaderBitsIgnored : let other : Vector Byte 16 := #v[0x4E, 0x45, 0x53, 0x1A, 2, 0, 0, 0x0F, 1, 2, 3, 4, 5, 6, 7, 8]
    (∀ i : Fin 16, i.val < 7 → other[i] = (hdrDecState (headerBytes 2 0 0 0) 16 16).hdrBuf[i]) ∧
      other[7].toNat / 16 = (hdrDecState (headerBytes 2 0 0 0) 16 16).hdrBuf[7].toNat / 16 := by decide

/-- 257 units, 256 units of CHR, mapper 256, and the greatest legal operands. -/
theorem witness_HdrEncSteps : (hdrEncState 0 0 0 3 false).mirr = 3 ∧ (hdrEncState 0 0 0 2 false).mirr ≠ 3 ∧
    (¬ ∃ u : Nat, 1 ≤ u ∧ u ≤ 256 ∧ (hdrEncState 4210688 0 0 0 false).prgSize.toInt = u * 16384) ∧
    (hdrEncState 4194304 0 0 0 false).prgSize.toInt = (256 : Nat) * 16384 ∧
    (¬ ∃ k : Nat, k ≤ 255 ∧ (hdrEncState 16384 2097152 0 0 false).chrSize.toInt = k * 8192) ∧
    (hdrEncState 16384 2088960 0 0 false).chrSize.toInt = (255 : Nat) * 8192 ∧
    (¬ ∃ m : Nat, m ≤ 255 ∧ (hdrEncState 16384 0 256 0 false).mapper.toInt = m) ∧
    (hdrEncState 16384 0 255 0 false).mapper.toInt = (255 : Nat) := by
  have h1 : (hdrEncState 4210688 0 0 0 false).prgSize.toInt = 4210688 := by decide
  have h2 : (hdrEncState 16384 2097152 0 0 false).chrSize.toInt = 2097152 := by decide
  have h3 : (hdrEncState 16384 0 256 0 false).mapper.toInt = 256 := by decide
  refine ⟨rfl, by decide, ?_, by decide, ?_, by decide, ?_, by decide⟩
  · rintro ⟨u, _, hu, h⟩; omega
  · rintro ⟨k, hk, h⟩; omega
  · rintro ⟨m, hm, h⟩; omega

theorem witness_HeaderDecodeInvertsEncode :
    (∃ t, exec .hdrEnc (hdrEncState 4194304 0 4 0 true) = .next t ∧ t.answer = some (.ok (.hdrEnc (headerBytes 0 0 0x42 0)))) ∧
    16 ≤ (hdrDecState (headerBytes 0 0 0x42 0) 16 4194320).avail.toInt ∧
    16 + (hdrEncState 4194304 0 4 0 true).prgSize.toInt + (hdrEncState 4194304 0 4 0 true).chrSize.toInt ≤
      (hdrDecState (headerBytes 0 0 0x42 0) 16 4194320).fileLen.toInt := ⟨⟨_, rfl, by decide⟩, by decide⟩

theorem witness_HeaderReencodingIsExactOnCanonical : ∃ t h, exec .hdrDec (hdrDecState (headerBytes 2 1 1 0) 16 40976) = .next t ∧
    t.answer = some (.ok (.hdrDec h)) ∧ (hdrEncState 32768 8192 0 1 false).prgSize = h.prgSize ∧
    (hdrEncState 32768 8192 0 1 false).chrSize = h.chrSize ∧ (hdrEncState 32768 8192 0 1 false).mapper = h.mapper ∧
    (hdrEncState 32768 8192 0 1 false).mirr = h.mirr ∧ (hdrEncState 32768 8192 0 1 false).xram = h.xram :=
  ⟨_, _, rfl, rfl, by decide, by decide, by decide, by decide, by decide⟩

/-- A decoded header; an encoded one; a size of 0 and 256 units of CHR; the largest unit counts. -/
theorem witness_HeaderFieldsBothWays : (∃ t h, exec .hdrDec (hdrDecState (headerBytes 0 0 0 0) 16 4194320) = .next t ∧
      t.answer = some (.ok (.hdrDec h))) ∧
    (∃ t hdr, exec .hdrEnc (hdrEncState 4194304 0 255 2 true) = .next t ∧ t.answer = some (.ok (.hdrEnc hdr))) ∧
    (∃ t, exec .hdrEnc (hdrEncState 0 0 0 0 false) = .next t ∧ (hdrEncState 0 0 0 0 false).prgSize.toInt = 0) ∧
    (∃ t, exec .hdrEnc (hdrEncState 16384 2097152 0 0 false) = .next t ∧ LegalPrgSize (hdrEncState 16384 2097152 0 0 false).prgSize.toInt ∧
      (hdrEncState 16384 2097152 0 0 false).chrSize.toInt = 256 * 8192) ∧
    ((1 : Nat) ≤ 256 ∧ (256 : Nat) ≤ 256 ∧ (255 : Nat) ≤ 255) :=
  ⟨⟨_, _, rfl, rfl⟩, ⟨_, _, rfl, rfl⟩, ⟨_, rfl, by decide⟩, ⟨_, rfl, ⟨1, by decide, by decide, by decide⟩, by decide⟩, by decide⟩

/-- A key of the fixture table, and a number that is none. The three table operations have the same hypotheses. -/
theorem witness_BankMinAnswers : mapperTableWf base.mapperTable ∧ ((0, BankSize.kib32) ∈ base.mapperTable ∧
      ({ base with mapper := 0 } : State).mapper.toInt = ((0 : Fin 256).val : Int)) ∧
    ∀ e ∈ base.mapperTable, ({ base with mapper := 77 } : State).mapper.toInt ≠ e.1.val := by decide
theorem witness_BankMincAnswers : mapperTableWf base.mapperTable ∧ ((4, BankSize.kib8) ∈ base.mapperTable ∧
      ({ base with mapper := 4 } : State).mapper.toInt = ((4 : Fin 256).val : Int)) ∧
    ∀ e ∈ base.mapperTable, ({ base with mapper := -1 } : State).mapper.toInt ≠ e.1.val := by decide
theorem witness_BankIsswAnswers : mapperTableWf base.mapperTable ∧ ((1, BankSize.kib16) ∈ base.mapperTable ∧
      ({ base with mapper := 1 } : State).mapper.toInt = ((1 : Fin 256).val : Int)) ∧
    ∀ e ∈ base.mapperTable, ({ base with mapper := 256 } : State).mapper.toInt ≠ e.1.val := by decide

theorem witness_UnknownFlagIsTheWarning : ∃ t a, exec .bankMin { base with mapper := 77 } = .next t ∧ t.answer = some a ∧
    a.unknown = some true := ⟨_, _, rfl, rfl, by decide⟩

theorem witness_NumbersBeyondTheHeaderAreUnknown : ({ base with mapper := -1 } : State).mapper.toInt < 0 ∧
    255 < ({ base with mapper := 256 } : State).mapper.toInt := by decide

/-- Each side of each bound. -/
theorem witness_TranslatorRejectsOutsideDomain : (p2cState 5 12288).bankSize.toInt ∉ [8192, 16384, 32768] ∧ (p2cState (-1) 8192).prgAddr.toInt < 0 ∧
    (c2pState 0x7FFF 16384 32768).cpuAddr.toInt < 0x8000 ∧ 0xFFFF < (c2pState 0x10000 8192 32768).cpuAddr.toInt := by decide

theorem witness_BankP2cAnswers : (p2cState 0 8192).bankSize.toInt = 8192 ∧ (8192 : Int) ∈ [8192, 16384, 32768] ∧ 0 ≤ (p2cState 0 8192).prgAddr.toInt := by
  decide

/-- The window's two ends; a size beyond the offset and one below it. -/
theorem witness_BankC2pAnswers : (c2pState 0x8000 32768 16384).bankSize.toInt = 32768 ∧ (32768 : Int) ∈ [8192, 16384, 32768] ∧
    0x8000 ≤ (c2pState 0x8000 32768 16384).cpuAddr.toInt ∧ (c2pState 0xFFFF 32768 16384).cpuAddr.toInt ≤ 0xFFFF ∧
    ¬ (c2pState 0x8000 32768 16384).prgSize.toInt ≤ (c2pState 0x8000 32768 16384).cpuAddr.toInt % 32768 ∧
    (c2pState 0xFFFF 32768 16384).prgSize.toInt ≤ (c2pState 0xFFFF 32768 16384).cpuAddr.toInt % 32768 := by decide

theorem witness_BankC2pfAnswers : (c2pfState 0x7FFF 16384 32768 0).cpuAddr.toInt < 0x8000 ∧
    (c2pfState 0x91D9 16384 32768 0xAD).bankSize.toInt ∈ [8192, 16384, 32768] ∧ 0x8000 ≤ (c2pfState 0x91D9 16384 32768 0xAD).cpuAddr.toInt ∧
    (c2pfState 0x91D9 16384 32768 0xAD).cpuAddr.toInt ≤ 0xFFFF ∧
    (c2pfState 0x91D9 16384 32768 0xAD).prgSize.toInt ≤ (c2pfState 0x91D9 16384 32768 0xAD).prg.size := by decide

/-- Refused one byte short of `PRGSIZE`; not refused at `PRGSIZE` bytes. -/
theorem witness_BankC2pfRefusesShortBuffer : let s : State := { c2pfState 0x91D9 16384 32768 0 with prg := Memory.blank 32767 }
    s.bankSize.toInt ∈ [8192, 16384, 32768] ∧ 0x8000 ≤ s.cpuAddr.toInt ∧ s.cpuAddr.toInt ≤ 0xFFFF ∧ (s.prg.size : Int) < s.prgSize.toInt ∧
      refusalOf (exec .bankC2pf { s with prg := Memory.blank 32768 }) = none := by decide

theorem witness_TranslationInverse : (∃ t, exec .bankP2c (p2cState 0x51D9 16384) = .next t ∧
      t.answer = some (.ok (.bankP2c [0x91D9, 0xD1D9]))) ∧ (c2pState 0xD1D9 16384 32768).cpuAddr ∈ [(0x91D9 : IntPort), 0xD1D9] ∧
    (c2pState 0xD1D9 16384 32768).bankSize = (p2cState 0x51D9 16384).bankSize ∧
    (p2cState 0x51D9 16384).prgAddr.toInt < (c2pState 0xD1D9 16384 32768).prgSize.toInt := ⟨⟨_, rfl, by decide⟩, by decide⟩

theorem witness_TranslationIsOneRelation : (∃ t, exec .bankP2c (p2cState 0x51D9 16384) = .next t ∧
      t.answer = some (.ok (.bankP2c [0x91D9, 0xD1D9]))) ∧
    (∃ v, exec .bankC2p (c2pState 0x91D9 16384 32768) = .next v ∧ v.answer = some (.ok (.bankC2p [0x11D9, 0x51D9]))) ∧
    (c2pState 0x91D9 16384 32768).bankSize = (p2cState 0x51D9 16384).bankSize ∧
    (p2cState 0x51D9 16384).prgAddr.toInt < (c2pState 0x91D9 16384 32768).prgSize.toInt :=
  ⟨⟨_, rfl, by decide⟩, ⟨_, rfl, by decide⟩, by decide⟩

theorem witness_SmallerBankGivesSuperset : (p2cState 5 16384).bankSize.toInt = 16384 ∧ (p2cState 5 32768).bankSize.toInt = 2 * 16384 ∧
    (∃ t l, exec .bankP2c (p2cState 5 16384) = .next t ∧ t.answer = some (.ok (.bankP2c l))) ∧
    (∃ t l, exec .bankP2c (p2cState 5 32768) = .next t ∧ t.answer = some (.ok (.bankP2c l))) :=
  ⟨by decide, by decide, ⟨_, _, rfl, rfl⟩, ⟨_, _, rfl, rfl⟩⟩
theorem witness_SmallerBankGivesSuperset_c2p : (c2pState 0x8000 8192 32768).bankSize.toInt = 8192 ∧
    (c2pState 0x8000 16384 32768).bankSize.toInt = 2 * 8192 ∧
    (∃ t l, exec .bankC2p (c2pState 0x8000 8192 32768) = .next t ∧ t.answer = some (.ok (.bankC2p l))) ∧
    (∃ t l, exec .bankC2p (c2pState 0x8000 16384 32768) = .next t ∧ t.answer = some (.ok (.bankC2p l))) :=
  ⟨by decide, by decide, ⟨_, _, rfl, rfl⟩, ⟨_, _, rfl, rfl⟩⟩

/-- Length 7, and `AAAAAB`. -/
theorem witness_GgDecRejects : ((ggDecState 7 sxiopo).len.toInt ≠ 6 ∧ (ggDecState 7 sxiopo).len.toInt ≠ 8) ∧
    ((ggDecState 6 #v[0x41, 0x41, 0x41, 0x41, 0x41, 0x42, 0, 0]).len.toInt = 6 ∧ ((5 : Fin 8).val : Int) < 6 ∧
      ∀ v : Nibble, ¬ SpellsLetter (ggDecState 6 #v[0x41, 0x41, 0x41, 0x41, 0x41, 0x42, 0, 0]).code[5] v) := by
  unfold SpellsLetter; decide

theorem witness_GgDecSixLetterLayout : (ggDecState 6 sxiopoLower).len.toInt = 6 ∧ SpellsLetter sxiopoLower[0] 13 ∧
    SpellsLetter sxiopoLower[1] 10 ∧ SpellsLetter sxiopoLower[2] 5 ∧ SpellsLetter sxiopoLower[3] 9 ∧ SpellsLetter sxiopoLower[4] 1 ∧
    SpellsLetter sxiopoLower[5] 9 := by unfold SpellsLetter; decide

theorem witness_GgDecEightLetterLayout : (ggDecState 8 sxsoposu).len.toInt = 8 ∧ SpellsLetter sxsoposu[0] 13 ∧ SpellsLetter sxsoposu[1] 10 ∧
    SpellsLetter sxsoposu[2] 13 ∧ SpellsLetter sxsoposu[3] 9 ∧ SpellsLetter sxsoposu[4] 1 ∧ SpellsLetter sxsoposu[5] 9 ∧
    SpellsLetter sxsoposu[6] 13 ∧ SpellsLetter sxsoposu[7] 11 := by unfold SpellsLetter; decide

theorem witness_GgEncRejects : ¬ (0 ≤ (ggEncState 0x10000 0 false 0).address.toInt ∧ (ggEncState 0x10000 0 false 0).address.toInt ≤ 0xFFFF) ∧
    ¬ (0 ≤ (ggEncState 0 (-1) false 0).replacement.toInt ∧ (ggEncState 0 (-1) false 0).replacement.toInt ≤ 255) ∧
    ((ggEncState 0 0 true 256).hasCmp = true ∧ ¬ (0 ≤ (ggEncState 0 0 true 256).compareInt.toInt ∧ (ggEncState 0 0 true 256).compareInt.toInt ≤ 255)) := by
  decide

theorem witness_GgEncSixLetters : (ggEncState 0xFFFF 0xFF false 256).address.toInt = ((0xFFFF : BitVec 16).toNat : Int) ∧
    (ggEncState 0xFFFF 0xFF false 256).replacement.toInt = ((0xFF : Byte).toNat : Int) ∧ (ggEncState 0xFFFF 0xFF false 256).hasCmp = false := by decide

theorem witness_GgEncEightLetters : (ggEncState 0 0 true 255).address.toInt = ((0 : BitVec 16).toNat : Int) ∧
    (ggEncState 0 0 true 255).replacement.toInt = ((0 : Byte).toNat : Int) ∧ (ggEncState 0 0 true 255).hasCmp = true ∧
    (ggEncState 0 0 true 255).compareInt.toInt = ((255 : Byte).toNat : Int) := by decide

theorem witness_GgEncThirdLetterShowsLength :
    (∃ t out, exec .ggEnc (ggEncState 0 0 false 0) = .next t ∧ t.answer = some (.ok (.ggEnc out)) ∧ (ggEncState 0 0 false 0).hasCmp = false) ∧
    (∃ t out, exec .ggEnc (ggEncState 0 0 true 0) = .next t ∧ t.answer = some (.ok (.ggEnc out)) ∧ (ggEncState 0 0 true 0).hasCmp = true) :=
  ⟨⟨_, _, rfl, rfl, rfl⟩, ⟨_, _, rfl, rfl, rfl⟩⟩

theorem witness_GgDecodeInvertsEncode : ∃ t, exec .ggEnc (ggEncState 0x11D9 0xAD false 0) = .next t ∧
    t.answer = some (.ok (.ggEnc [0x53, 0x58, 0x49, 0x4F, 0x50, 0x4F])) ∧ (ggDecState 6 sxiopo).len.toInt = 6 ∧
    ∀ i : Fin 8, i.val < 6 → ([0x53, 0x58, 0x49, 0x4F, 0x50, 0x4F] : List Byte)[i.val]? = some (ggDecState 6 sxiopo).code[i] :=
  ⟨_, rfl, by decide, by decide, by decide⟩

/-- `AAEAAA` beside `AAAAAA`: the codes differ in the bit that does not matter. -/
theorem witness_GgOneDontCareBit : let code : Vector Byte 8 := #v[0x41, 0x41, 0x45, 0x41, 0x41, 0x41, 0, 0]
    let other : Vector Byte 8 := #v[0x41, 0x41, 0x41, 0x41, 0x41, 0x41, 0, 0]
    ∀ i : Fin 8, (i.val : Int) < 6 → SpellsLetter code[i] (if i = 2 then 8 else 0) ∧ SpellsLetter other[i] 0 := by
  unfold SpellsLetter; decide

theorem witness_GgCanonicalFormIsIdempotent : decodeCode 6 sxiopo = .ok (.sixLetter 0x91D9 0xAD) ∧
    canonicalCode 6 sxiopo = .ok [0x53, 0x58, 0x49, 0x4F, 0x50, 0x4F] ∧
    ∀ i : Fin 8, i.val < 6 → ([0x53, 0x58, 0x49, 0x4F, 0x50, 0x4F] : List Byte)[i.val]? = some sxiopo[i] := ⟨by rfl, by rfl, by decide⟩

theorem witness_TileCodecInverse : (∃ t, exec .tileDec (tileDecState 0x41 0xC2) = .next t ∧ t.answer = some (.ok (.tileDec #v[2, 3, 0, 0, 0, 0, 2, 1]))) ∧
    (tileEncState #v[2, 3, 0, 0, 0, 0, 2, 1]).px = #v[2, 3, 0, 0, 0, 0, 2, 1] ∧
    (∃ t, exec .tileEnc (tileEncState #v[2, 3, 0, 0, 0, 0, 2, 1]) = .next t ∧ t.answer = some (.ok (.tileEnc 0x41 0xC2))) ∧
    (tileDecState 0x41 0xC2).lo = 0x41 ∧ (tileDecState 0x41 0xC2).hi = 0xC2 := ⟨⟨_, rfl, by decide⟩, rfl, ⟨_, rfl, by decide⟩, rfl, rfl⟩

theorem witness_TileDecodeProperties : (∃ t, exec .tileDec (tileDecState 0xFF 0) = .next t ∧ t.answer = some (.ok (.tileDec #v[1, 1, 1, 1, 1, 1, 1, 1]))) ∧
    (tileDecState 0 0xFF).lo = (tileDecState 0xFF 0).hi ∧ (tileDecState 0 0xFF).hi = (tileDecState 0xFF 0).lo ∧
    (∃ v, exec .tileDec (tileDecState 0 0xFF) = .next v ∧ v.answer = some (.ok (.tileDec #v[2, 2, 2, 2, 2, 2, 2, 2]))) ∧
    (tileDecState 0xFF 0).hi = 0 := ⟨⟨_, rfl, by decide⟩, rfl, rfl, ⟨_, rfl, by decide⟩, rfl⟩

end Sys2Proof.Tests
end

section
/-! PROOFS. The invariant of the block (10_state.md R17, R23, R26): whatever results an operation completes with lie in the ranges of the
rules. -/

namespace Sys2Proof.Machine

open Sys2Proof

/-! ### What a step does -/

/-- A step performs the operation its fetched bytes decode to. -/
theorem step_of_decode {s : State} {i : Instr} {rest : List Byte} (h : decode (fetch s) = .ok (i, rest)) : step s = exec i s := by
  simp only [step, h]

/-- A step performs the operation whose code stands on `OP`. -/
theorem step_of_op {s : State} {i : Instr} (h : s.op = opCode i) : step s = exec i s :=
  step_of_decode (rest := []) (by rw [decode_fetch, h, decodeOp_opCode])

/-- A step that answers performed the operation that `OP` selects. -/
theorem step_next {s t : State} (h : step s = .next t) : ∃ i, s.op = opCode i ∧ exec i s = .next t := by
  cases hd : decodeOp s.op with
  | ok i =>
    have hop := eq_opCode_of_decodeOp _ _ hd
    exact ⟨i, hop, step_of_op hop ▸ h⟩
  | error r =>
    have hf : decode (fetch s) = .error r := by rw [decode_fetch, hd]
    rw [step, hf] at h
    cases h

/-! ### Headers (R17, R23, R69) -/

/-- The integers on the ports of a decoded header: none is lost on a port of 32 bits. -/
theorem headerResult_ports (b : Vector Byte 16) :
    (headerResult (parseHeader b)).trainerStart.toInt = 16 ∧
    (headerResult (parseHeader b)).trainerSize.toInt = (parseHeader b).trainerSize ∧
    (headerResult (parseHeader b)).prgStart.toInt = 16 + (parseHeader b).trainerSize ∧
    (headerResult (parseHeader b)).prgSize.toInt = (parseHeader b).prgSize ∧
    (headerResult (parseHeader b)).chrStart.toInt = 16 + (parseHeader b).trainerSize + (parseHeader b).prgSize ∧
    (headerResult (parseHeader b)).chrSize.toInt = (parseHeader b).chrSize ∧
    (headerResult (parseHeader b)).mapper.toInt = (parseHeader b).mapper := by
  obtain ⟨-, hprg, -, hchr, -, htrn, hmap⟩ := parseHeader_bounds b
  refine ⟨rfl, toPort_toInt ?_ ?_, toPort_toInt ?_ ?_, toPort_toInt ?_ ?_, toPort_toInt ?_ ?_, toPort_toInt ?_ ?_, toPort_toInt ?_ ?_⟩ <;>
    push_cast <;> omega

theorem mirrCode_ne_three (m : Mirroring) : mirrCode m ≠ 3 := by cases m <;> decide

theorem headerResult_inRange (b : Vector Byte 16) : (headerResult (parseHeader b)).inRange := by
  obtain ⟨hprg1, hprg2, hprg3, hchr1, hchr2, htrn, hmap⟩ := parseHeader_bounds b
  obtain ⟨ets, et, eps, ep, ecs, ec, em⟩ := headerResult_ports b
  unfold Header.inRange
  rw [ets, et, eps, ep, ecs, ec, em]
  refine ⟨rfl, ?_, rfl, rfl, ?_, ?_, ?_, ?_, ?_, ?_, ?_, ?_, mirrCode_ne_three _⟩ <;> omega

/-- A header that HDR.DEC returns is the parsed one, and all of it fits `FILELEN` (R64 step S5, R67). -/
theorem execHdrDec_header {s t : State} {h : Header} (he : execHdrDec s = .next t) (ha : t.answer = some (.ok (.hdrDec h))) :
    h = headerResult (parseHeader s.hdrBuf) ∧ requiredLength (parseHeader s.hdrBuf) ≤ s.fileLen.toInt := by
  rcases execHdrDec_cases s with ⟨_, e⟩ | ⟨_, _, e⟩ | ⟨_, _, _, e⟩ | ⟨_, _, hfit, e⟩ <;> rw [e] at he
  · rw [raise_next he] at ha; cases ha
  · rw [raise_next he] at ha; cases ha
  · rw [raise_next he] at ha; cases ha
  · rw [complete_next he] at ha; cases ha; exact ⟨rfl, hfit⟩

theorem packHeader_byte6 {u c m : Nat} (hm : m ≤ 255) (r : Mirroring) (x : Bool) :
    (packHeader (u * 16384) (c * 8192) m r x)[6].toNat = packedByte6 m r x := by
  rw [packHeader_eq hm]
  exact Nat.mod_eq_of_lt (packedByte6_fields m r x).1

theorem packHeader_byte7 {u c m : Nat} (hm : m ≤ 255) (r : Mirroring) (x : Bool) :
    (packHeader (u * 16384) (c * 8192) m r x)[7].toNat = m / 16 * 16 := by
  rw [packHeader_eq hm]
  exact Nat.mod_eq_of_lt (by omega)

/-- R70's list holds of every header that HDR.ENC packs. -/
theorem packHeader_canonical {u c m : Nat} (hm : m ≤ 255) (r : Mirroring) (x : Bool) :
    canonicalHeader (packHeader (u * 16384) (c * 8192) m r x) := by
  obtain ⟨-, -, hfour, htrainer, -, hvert⟩ := packedByte6_fields m r x
  unfold canonicalHeader
  rw [packHeader_byte6 hm, packHeader_byte7 hm, hfour, htrainer, hvert]
  refine ⟨rfl, ?_, by omega, ?_⟩
  · cases r <;> decide
  · rintro ⟨i, hi⟩ (h8 : 8 ≤ i)
    interval_cases i <;> rfl

/-! ### The mapper table and the translator (R26, R79, R82) -/

theorem lookupMapper_port (t : MapperTable) (m : Int) : (toPort (lookupMapper t m).1).toInt = (lookupMapper t m).1 := by
  have := lookupMapper_size t m
  exact toPort_toInt (by omega) (by omega)

theorem bankMin_inRange (t : MapperTable) (m : Int) (u : Bool) : (Result.bankMin (toPort (lookupMapper t m).1) u).inRange := by
  have := lookupMapper_size t m
  change (toPort (lookupMapper t m).1).toInt ∈ [8192, 16384, 32768]
  simpa [lookupMapper_port] using this

theorem bankMinc_inRange (t : MapperTable) (m : Int) (z : IntPort) (u : Bool) :
    (Result.bankMinc (toPort (min (lookupMapper t m).1 z.toInt)) u).inRange := by
  have := lookupMapper_size t m
  have := port_lower z
  change (toPort (min (lookupMapper t m).1 z.toInt)).toInt ≤ 32768
  rw [toPort_toInt] <;> omega

/-- R79: the window holds one address per bank slot, so 4, 2 or 1. -/
theorem prgToCpu_length {p b : Int} (hb : b ∈ [8192, 16384, 32768]) : (prgToCpu p b).length ∈ [1, 2, 4] := by
  have hlen : ((prgToCpu p b).length : Int) = _ := sequenceBelow_length (bankSize_pos hb)
  simp only [cpuWinLo, cpuTop] at hlen
  simp only [List.mem_cons, List.not_mem_nil, or_false] at hb ⊢
  rcases hb with rfl | rfl | rfl <;> omega

theorem bankP2c_inRange {p b : Int} (hb : b ∈ [8192, 16384, 32768]) : (Result.bankP2c ((prgToCpu p b).map toPort)).inRange := by
  have hfit := prgToCpu_fits (p := p) hb
  refine ⟨?_, ascending_map_toPort hfit (sequenceBelow_ascending (bankSize_pos hb)), fun a ha => ?_⟩
  · rw [List.length_map]; exact prgToCpu_length hb
  · have := prgToCpu_bounds hb ((mem_map_toPort hfit).1 ha)
    exact ⟨this.1, by omega⟩

/-- Any ascending selection of the candidates, BANK.C2P's whole list or what BANK.C2PF's filter keeps, is in range (R82, R84). -/
theorem offsets_inRange {a b : Int} {z : IntPort} {l : List Int} (hb : b ∈ [8192, 16384, 32768])
    (hl : l.Sublist (cpuToPrg a b z.toInt)) : ascending (l.map toPort) ∧ ∀ p ∈ l.map toPort, 0 ≤ p.toInt := by
  have hfit : ∀ v ∈ l, -2 ^ 31 ≤ v ∧ v < 2 ^ 31 := fun v hv => cpuToPrg_fits hb v (hl.subset hv)
  exact ⟨ascending_map_toPort hfit ((sequenceBelow_ascending (bankSize_pos hb)).sublist hl),
    fun p hp => (cpuToPrg_bounds hb (hl.subset ((mem_map_toPort hfit).1 hp))).1⟩

/-! ### Game Genie codes (R90, R94) -/

theorem ofNat_toInt {n : Nat} (h : n < 2 ^ 31) : (BitVec.ofNat 32 n).toInt = n := by
  rw [← BitVec.ofInt_natCast]
  exact toPort_toInt (by omega) (by omega)

/-- An address whose top bit is forced to 1 lies in the CPU window (R89, R90). -/
theorem portInWindow_ofNat (n : Nat) : portInWindow (BitVec.ofNat 32 (0x8000 + n % 0x8000)) := by
  unfold portInWindow
  rw [ofNat_toInt] <;> omega

theorem portInByte_ofNat (n : Nat) : portInByte (BitVec.ofNat 32 (n % 0x100)) := by
  unfold portInByte
  rw [ofNat_toInt] <;> omega

theorem ggDec_inRange (n : List Nibble) (len : Nat) : (Result.ggDec (decodeLetters n len)).inRange := by
  unfold decodeLetters
  split
  · rw [splitSix_eq]
    exact ⟨portInWindow_ofNat _, portInByte_ofNat _, fun _ h => nomatch h⟩
  · rw [splitEight_eq]
    exact ⟨portInWindow_ofNat _, portInByte_ofNat _, fun _ h => Option.some.inj h ▸ portInByte_ofNat _⟩

theorem letterOf_mem : ∀ v : Nibble, letterOf v ∈ lowLetters ++ highLetters := by decide

theorem letterOf_low {n : Nat} (h : n < 8) : letterOf (BitVec.ofNat 4 n) ∈ lowLetters := by
  interval_cases n <;> decide

theorem letterOf_high {n : Nat} (h : n < 8) : letterOf (BitVec.ofNat 4 (8 + n)) ∈ highLetters := by
  interval_cases n <;> decide

/-- R94: upper-case letters, and the third one, which address bits 6 to 4 (and in eight letters a 1 above them) spell, shows the length. -/
theorem ggEnc_inRange (a r : Int) (c : Option Int) : (Result.ggEnc (encodeTriple a r c)).inRange := by
  have hbits : (BitVec.ofInt 16 a).toNat / 0x10 % 8 < 8 := Nat.mod_lt _ (by decide)
  cases c with
  | none =>
    refine ⟨List.forall_mem_map.2 fun v _ => letterOf_mem v, .inl ?_⟩
    rw [encodeTriple, distribute_packSix]
    exact ⟨rfl, letterOf_low hbits⟩
  | some d =>
    refine ⟨List.forall_mem_map.2 fun v _ => letterOf_mem v, .inr ?_⟩
    rw [encodeTriple, distribute_packEight]
    exact ⟨rfl, letterOf_high hbits⟩

/-! ### Every operation completes in range -/

/-- Whatever results the outcome writes lie in their ranges. -/
def ResultsInRange (o : Host.Outcome State Fault Refusal) : Prop :=
  ∀ t r, o = .next t → t.answer = some (.ok r) → r.inRange

theorem raise_inRange (e : ErrorKind) (s : State) : ResultsInRange (raise e s) := fun t r h ha => by
  rw [raise_next h] at ha; cases ha

theorem complete_inRange {r : Result} (s : State) (hr : r.inRange) : ResultsInRange (complete r s) := fun t r' h ha => by
  rw [complete_next h] at ha; cases ha; exact hr

theorem refused_inRange (r : Refusal) : ResultsInRange (.refused r) := fun _ _ h => nomatch h

theorem exec_inRange (i : Instr) (s : State) : ResultsInRange (exec i s) := by
  cases i with
  | hdrDec =>
    rcases execHdrDec_cases s with ⟨_, e⟩ | ⟨_, _, e⟩ | ⟨_, _, _, e⟩ | ⟨_, _, _, e⟩ <;> rw [exec, e]
    · exact raise_inRange _ s
    · exact raise_inRange _ s
    · exact raise_inRange _ s
    · exact complete_inRange s (headerResult_inRange _)
  | hdrEnc =>
    rcases execHdrEnc_cases s with ⟨_, e⟩ | ⟨m, _, ⟨_, e⟩ | ⟨_, _, e⟩ | ⟨_, _, _, e⟩ | ⟨hp, hc, hm, e⟩⟩ <;> rw [exec, e]
    · exact refused_inRange _
    · exact raise_inRange _ s
    · exact raise_inRange _ s
    · exact raise_inRange _ s
    · obtain ⟨u, _, _, eu⟩ := validPrgSize_iff.1 hp
      obtain ⟨c, _, ec⟩ := validChrSize_iff.1 hc
      obtain ⟨n, hn, en⟩ := validMapper_iff.1 hm
      rw [eu, ec, en]
      exact complete_inRange s ⟨rfl, rfl, rfl, rfl, packHeader_canonical hn m s.xram⟩
  | bankMin => exact complete_inRange s (bankMin_inRange _ _ _)
  | bankMinc => exact complete_inRange s (bankMinc_inRange _ _ _ _)
  | bankIssw => exact complete_inRange s trivial
  | bankP2c =>
    rcases execBankP2c_cases s with ⟨_, e⟩ | ⟨hb, _, e⟩ <;> rw [exec, e]
    · exact raise_inRange _ s
    · exact complete_inRange s (bankP2c_inRange hb)
  | bankC2p =>
    rcases execBankC2p_cases s with ⟨_, e⟩ | ⟨⟨hb, _⟩, e⟩ <;> rw [exec, e]
    · exact raise_inRange _ s
    · exact complete_inRange s (offsets_inRange hb (List.Sublist.refl _))
  | bankC2pf =>
    rcases execBankC2pf_cases s with ⟨_, e⟩ | ⟨_, _, e⟩ | ⟨⟨hb, _⟩, _, e⟩ <;> rw [exec, e]
    · exact raise_inRange _ s
    · exact refused_inRange _
    · exact complete_inRange s (offsets_inRange hb List.filter_sublist)
  | ggDec =>
    change ResultsInRange (execGgDec s)
    rcases decodeCode_cases s.len.toInt s.code with ⟨_, _, e⟩ | ⟨l, _, ⟨_, e⟩ | ⟨n, _, e⟩⟩
    · rw [execGgDec_of_error e]; exact raise_inRange _ s
    · rw [execGgDec_of_error e]; exact raise_inRange _ s
    · rw [execGgDec_of_ok e]; exact complete_inRange s (ggDec_inRange n l)
  | ggEnc =>
    change ResultsInRange (execGgEnc s)
    cases hv : validTriple s.address.toInt s.replacement.toInt (compareOperand s) with
    | false => rw [execGgEnc_of_invalid hv]; exact raise_inRange _ s
    | true => rw [execGgEnc_of_valid hv]; exact complete_inRange s (ggEnc_inRange _ _ _)
  | tileDec => exact complete_inRange s trivial
  | tileEnc => exact complete_inRange s trivial

/-- Settles O16: an operation writes only its answer (`exec_next`), and what it answers is in range (`exec_inRange`). -/
theorem stepKeepsInvariant : Obligations.StepKeepsInvariant := by
  intro s t ⟨hprg, htable, _⟩ hstep
  obtain ⟨i, -, hexec⟩ := step_next hstep
  have hres := exec_inRange i s t
  obtain ⟨a, rfl⟩ := exec_next hexec
  exact ⟨hprg, htable, fun r ha => hres r hexec ha⟩

/-- Settles O18: the header is the parsed one, in range, and the last test of HDR.DEC bounds its length by `FILELEN`. -/
theorem decodedHeaderIsConsistent : Obligations.DecodedHeaderIsConsistent := by
  intro s t h hexec ha
  obtain ⟨rfl, hfit⟩ := execHdrDec_header hexec ha
  obtain ⟨-, et, -, ep, -, ec, -⟩ := headerResult_ports s.hdrBuf
  refine ⟨headerResult_inRange _, ?_⟩
  rw [et, ep, ec]
  simp only [requiredLength, hdrLen, Nat.cast_add, Nat.cast_ofNat] at hfit
  omega

end Sys2Proof.Machine
end

section
/-! PROOFS. An operation's outcome is a function of its own ports, the bytes it reads and the table (10_state.md R13, R41, R119), so a step
repeated answers the same; and the state after reset (R24). -/

namespace Sys2Proof.Machine

open Sys2Proof

/-! ### Outcomes alike -/

/-- From `s` and from `u` the same answer is given, or the same refusal. -/
def OutcomesAlike (s u : State) (o p : Host.Outcome State Fault Refusal) : Prop :=
  (∃ a, o = .next (s.setAnswer a) ∧ p = .next (u.setAnswer a)) ∨ ∃ r, o = .refused r ∧ p = .refused r

theorem raise_alike (e : ErrorKind) (s u : State) : OutcomesAlike s u (raise e s) (raise e u) := .inl ⟨_, rfl, rfl⟩

theorem complete_alike (r : Result) (s u : State) : OutcomesAlike s u (complete r s) (complete r u) := .inl ⟨_, rfl, rfl⟩

theorem refused_alike (r : Refusal) (s u : State) : OutcomesAlike s u (.refused r) (.refused r) := .inr ⟨_, rfl, rfl⟩

theorem OutcomesAlike.next {s u t : State} {o p : Host.Outcome State Fault Refusal} (h : OutcomesAlike s u o p) (ho : o = .next t) :
    p = .next { u with answer := t.answer } := by
  obtain ⟨a, rfl, rfl⟩ | ⟨r, rfl, _⟩ := h
  · cases ho; rfl
  · cases ho

theorem OutcomesAlike.refused {s u : State} {o p : Host.Outcome State Fault Refusal} {r : Refusal} (h : OutcomesAlike s u o p)
    (ho : o = .refused r) : p = .refused r := by
  obtain ⟨a, rfl, _⟩ | ⟨r', rfl, rfl⟩ := h
  · cases ho
  · exact ho

/-! ### The same request, the same outcome -/

/-- R64: the header bytes count only from `AVAIL` 16 on. -/
theorem execHdrDec_alike {s u : State} (h : SameRequest .hdrDec s u) : OutcomesAlike s u (execHdrDec s) (execHdrDec u) := by
  obtain ⟨havail, hlen, hbuf⟩ := h
  unfold execHdrDec readHeader
  rw [← havail, ← hlen]
  split
  · exact raise_alike _ s u
  · rename_i h16
    rw [← hbuf (not_lt.1 h16)]
    split
    · split
      · exact raise_alike _ s u
      · exact complete_alike _ s u
    · exact raise_alike _ s u

theorem execHdrEnc_alike {s u : State} (h : SameRequest .hdrEnc s u) : OutcomesAlike s u (execHdrEnc s) (execHdrEnc u) := by
  obtain ⟨hprg, hchr, hmap, hmirr, hxram⟩ := h
  unfold execHdrEnc
  rw [← hprg, ← hchr, ← hmap, ← hmirr, ← hxram]
  cases mirrOfCode s.mirr with
  | none => exact refused_alike _ s u
  | some m =>
    dsimp only
    split
    · exact raise_alike _ s u
    · split
      · exact raise_alike _ s u
      · split
        · exact raise_alike _ s u
        · exact complete_alike _ s u

theorem execBankMin_alike {s u : State} (h : SameRequest .bankMin s u) : OutcomesAlike s u (execBankMin s) (execBankMin u) := by
  obtain ⟨hmap, htable⟩ := h
  rw [execBankMin, execBankMin, ← hmap, ← htable]
  exact complete_alike _ s u

theorem execBankMinc_alike {s u : State} (h : SameRequest .bankMinc s u) : OutcomesAlike s u (execBankMinc s) (execBankMinc u) := by
  obtain ⟨hprg, hmap, htable⟩ := h
  rw [execBankMinc, execBankMinc, ← hprg, ← hmap, ← htable]
  exact complete_alike _ s u

theorem execBankIssw_alike {s u : State} (h : SameRequest .bankIssw s u) : OutcomesAlike s u (execBankIssw s) (execBankIssw u) := by
  obtain ⟨hprg, hmap, htable⟩ := h
  rw [execBankIssw, execBankIssw, ← hprg, ← hmap, ← htable]
  exact complete_alike _ s u

theorem execBankP2c_alike {s u : State} (h : SameRequest .bankP2c s u) : OutcomesAlike s u (execBankP2c s) (execBankP2c u) := by
  obtain ⟨haddr, hbank⟩ := h
  rw [execBankP2c, execBankP2c, ← haddr, ← hbank]
  split
  · exact raise_alike _ s u
  · exact complete_alike _ s u

theorem execBankC2p_alike {s u : State} (h : SameRequest .bankC2p s u) : OutcomesAlike s u (execBankC2p s) (execBankC2p u) := by
  obtain ⟨haddr, hbank, hprg⟩ := h
  rw [execBankC2p, execBankC2p, ← haddr, ← hbank, ← hprg]
  split
  · exact raise_alike _ s u
  · exact complete_alike _ s u

/-- The filter of R84 looks at the candidates' bytes and at `COMPARE` only. -/
theorem filterByByte_congr {s u : State} {l : List Int} (hcmp : s.compareByte = u.compareByte)
    (hbytes : ∀ p ∈ l, memRead .prg p.toNat s = memRead .prg p.toNat u) : filterByByte s l = filterByByte u l := by
  unfold filterByByte
  exact List.filter_congr fun p hp => by rw [hbytes p hp, hcmp]

/-- The bytes read are those at the candidates, which exist in both buffers or the operation is refused from both (R84, U11). -/
theorem execBankC2pf_alike {s u : State} (h : SameRequest .bankC2pf s u) : OutcomesAlike s u (execBankC2pf s) (execBankC2pf u) := by
  obtain ⟨haddr, hbank, hprg, hcmp, hshort, hbytes⟩ := h
  have hsame : prgBufferShort s = prgBufferShort u := by
    rw [Bool.eq_iff_iff, prgBufferShort_iff, prgBufferShort_iff, ← not_le, ← not_le, hshort]
  unfold execBankC2pf
  rw [← haddr, ← hbank, ← hprg, ← hsame]
  rcases cpuDomain_test s with ⟨⟨hb, _⟩, e⟩ | ⟨_, e⟩ <;> rw [e]
  · cases hz : prgBufferShort s with
    | true => exact refused_alike _ s u
    | false =>
      have hlong : s.prgSize.toInt ≤ s.prg.size := by simpa [prgBufferShort] using hz
      rw [filterByByte_congr (u := u) hcmp fun p hp => ?_]
      · exact complete_alike _ s u
      · obtain ⟨h0, hlt, hmod⟩ := (mem_cpuToPrg_iff hb).1 hp
        have hp' : (p.toNat : Int) = p := Int.toNat_of_nonneg h0
        exact hbytes hlong p.toNat (by omega) (hp'.symm ▸ hmod)
  · exact raise_alike _ s u

/-- Only the first `len` characters are read (R87, D17). -/
theorem readLetters_congr {code code' : Vector Byte 8} {len : Nat} (h : ∀ i : Fin 8, i.val < len → code[i] = code'[i]) :
    readLetters code len = readLetters code' len := by
  unfold readLetters
  congr 1
  apply List.ext_getElem (by simp)
  intro i h1 h2
  have hi : i < len ∧ i < 8 := by simpa using h1
  simpa using h ⟨i, hi.2⟩ hi.1

theorem execGgDec_alike {s u : State} (h : SameRequest .ggDec s u) : OutcomesAlike s u (execGgDec s) (execGgDec u) := by
  obtain ⟨hlen, hcode⟩ := h
  have hdec : decodeCode s.len.toInt s.code = decodeCode u.len.toInt u.code := by
    rw [← hlen]
    unfold decodeCode
    cases hl : codeLength s.len.toInt with
    | none => rfl
    | some l =>
      have hll : s.len.toInt = l := by rcases codeLength_some.1 hl with ⟨h, rfl⟩ | ⟨h, rfl⟩ <;> exact h
      dsimp only
      rw [readLetters_congr fun i hi => hcode i (by omega)]
  rw [execGgDec, execGgDec, ← hdec]
  cases decodeCode s.len.toInt s.code with
  | error e => exact raise_alike e s u
  | ok t => exact complete_alike _ s u

/-- An absent compare value is not looked at (R91, D18). -/
theorem execGgEnc_alike {s u : State} (h : SameRequest .ggEnc s u) : OutcomesAlike s u (execGgEnc s) (execGgEnc u) := by
  obtain ⟨haddr, hrepl, hhas, hcmp⟩ := h
  have hop : compareOperand s = compareOperand u := by
    unfold compareOperand
    rw [← hhas]
    split
    · rename_i hs; rw [hcmp hs]
    · rfl
  rw [execGgEnc, execGgEnc, ← haddr, ← hrepl, ← hop]
  cases encodeCode s.address.toInt s.replacement.toInt (compareOperand s) with
  | error e => exact raise_alike e s u
  | ok c => exact complete_alike _ s u

theorem execTileDec_alike {s u : State} (h : SameRequest .tileDec s u) : OutcomesAlike s u (execTileDec s) (execTileDec u) := by
  obtain ⟨hlo, hhi⟩ := h
  rw [execTileDec, execTileDec, ← hlo, ← hhi]
  exact complete_alike _ s u

theorem execTileEnc_alike {s u : State} (h : SameRequest .tileEnc s u) : OutcomesAlike s u (execTileEnc s) (execTileEnc u) := by
  have hpx : s.px = u.px := h
  rw [execTileEnc, execTileEnc, ← hpx]
  exact complete_alike _ s u

theorem exec_alike {i : Instr} {s u : State} (h : SameRequest i s u) : OutcomesAlike s u (exec i s) (exec i u) := by
  cases i with
  | hdrDec => exact execHdrDec_alike h
  | hdrEnc => exact execHdrEnc_alike h
  | bankMin => exact execBankMin_alike h
  | bankMinc => exact execBankMinc_alike h
  | bankIssw => exact execBankIssw_alike h
  | bankP2c => exact execBankP2c_alike h
  | bankC2p => exact execBankC2p_alike h
  | bankC2pf => exact execBankC2pf_alike h
  | ggDec => exact execGgDec_alike h
  | ggEnc => exact execGgEnc_alike h
  | tileDec => exact execTileDec_alike h
  | tileEnc => exact execTileEnc_alike h

/-- Settles O11: by `exec_alike`, one lemma per operation. -/
theorem outcomeDependsOnOwnPorts : Obligations.OutcomeDependsOnOwnPorts :=
  fun _ _ _ h => ⟨fun _ => (exec_alike h).next, fun _ => (exec_alike h).refused⟩

/-- No operation has the answer among its operands (log 3). -/
theorem sameRequest_setAnswer (i : Instr) (s : State) (a : Answer) : SameRequest i s (s.setAnswer a) := by
  cases i <;> simp [SameRequest]

/-- Performing an operation on its own outcome gives that outcome again (R111). -/
theorem exec_again {i : Instr} {s t : State} (h : exec i s = .next t) : exec i t = .next t := by
  obtain ⟨a, rfl⟩ := exec_next h
  exact (exec_alike (sameRequest_setAnswer i s a)).next h

/-! ### Selecting and repeating -/

/-- Settles O4: from the bytes fetched, and from the code on `OP`. -/
theorem stepPerformsSelectedOperation : Obligations.StepPerformsSelectedOperation :=
  ⟨fun _ _ _ => step_of_decode, fun _ _ => step_of_op⟩

/-- Settles O10: `OP` still selects the same operation, which answers the same again. -/
theorem sameRequestSameAnswerAgain : Obligations.SameRequestSameAnswerAgain := by
  intro s t h
  obtain ⟨i, hop, hexec⟩ := step_next h
  have hop' : t.op = opCode i := by obtain ⟨a, rfl⟩ := exec_next hexec; exact hop
  rw [step_of_op hop']
  exact exec_again hexec

/-! ### Reset (R24) -/

theorem mem_reset_mapperTable (k : Fin 256) (b : BankSize) : (k, b) ∈ State.reset.mapperTable ↔ Config.mapperTable k = some b := by
  simp only [State.reset, List.mem_filterMap, List.mem_finRange, true_and, Option.map_eq_some_iff, Prod.mk.injEq]
  constructor
  · rintro ⟨_, _, h, rfl, rfl⟩; exact h
  · intro h; exact ⟨k, b, h, rfl, rfl⟩

/-- The parameter is listed in the order of its keys (log 1). -/
theorem reset_mapperTableWf : mapperTableWf State.reset.mapperTable := by
  refine List.pairwise_filterMap.2 ((List.pairwise_lt_finRange 256).imp fun {k l} hkl e he f hf => ?_)
  obtain ⟨_, _, rfl⟩ := Option.map_eq_some_iff.1 he
  obtain ⟨_, _, rfl⟩ := Option.map_eq_some_iff.1 hf
  exact hkl

/-- Settles O14: reset binds the parameter and leaves no answer. -/
theorem resetBindsTheParameter : Obligations.ResetBindsTheParameter := ⟨mem_reset_mapperTable, rfl⟩

/-- Settles O15: no `PRG` byte is listed, the table's keys rise, and no result stands on the ports. -/
theorem resetMeetsInvariant : Obligations.ResetMeetsInvariant :=
  ⟨Memory.blank_wf 0, reset_mapperTableWf, fun _ h => nomatch h⟩

end Sys2Proof.Machine
end

section
/-! PROOFS. The byte spaces of the block (20_memory.md): no operation stores into one (R36), and the translator's two directions answer by
one relation between PRG offsets and CPU addresses (R40). -/

namespace Sys2Proof.Machine

open Sys2Proof

/-- Settles O5: an outcome is `setAnswer` of the old state (`exec_next`), which no read of a buffer sees. -/
theorem operationChangesOnlyTheAnswer : Obligations.OperationChangesOnlyTheAnswer := by
  intro i s t h
  obtain ⟨a, rfl⟩ := exec_next h
  exact ⟨⟨a, rfl⟩, memRead_setAnswer s a⟩

/-! ### The addresses and offsets on the ports of a translation (R40) -/

/-- A BANK.P2C that completes with addresses was in its domain, and they are the sequence of R78. -/
theorem execBankP2c_addr {s t : State} {l : List IntPort} (he : execBankP2c s = .next t) (ha : t.answer = some (.ok (.bankP2c l))) :
    s.bankSize.toInt ∈ [8192, 16384, 32768] ∧ 0 ≤ s.prgAddr.toInt ∧ l = (prgToCpu s.prgAddr.toInt s.bankSize.toInt).map toPort := by
  rcases execBankP2c_cases s with ⟨_, e⟩ | ⟨hb, hp, e⟩ <;> rw [e] at he
  · rw [raise_next he] at ha; cases ha
  · rw [complete_next he] at ha; cases ha; exact ⟨hb, hp, rfl⟩

/-- A BANK.C2P that completes with offsets was in its domain, and they are the sequence of R81. -/
theorem execBankC2p_addr {s t : State} {l : List IntPort} (he : execBankC2p s = .next t) (ha : t.answer = some (.ok (.bankC2p l))) :
    cpuDomain s ∧ l = (cpuToPrg s.cpuAddr.toInt s.bankSize.toInt s.prgSize.toInt).map toPort := by
  rcases execBankC2p_cases s with ⟨_, e⟩ | ⟨hd, e⟩ <;> rw [e] at he
  · rw [raise_next he] at ha; cases ha
  · rw [complete_next he] at ha; cases ha; exact ⟨hd, rfl⟩

/-- BANK.P2C answers the window's addresses that agree with the offset modulo the bank size. -/
theorem mem_execBankP2c_addr {s t : State} {l : List IntPort} {a : IntPort} (he : execBankP2c s = .next t)
    (ha : t.answer = some (.ok (.bankP2c l))) :
    a ∈ l ↔ portInWindow a ∧ a.toInt % s.bankSize.toInt = s.prgAddr.toInt % s.bankSize.toInt := by
  obtain ⟨hb, -, rfl⟩ := execBankP2c_addr he ha
  rw [mem_map_toPort (prgToCpu_fits hb), mem_prgToCpu_iff hb, ← and_assoc]
  exact and_congr_left' (and_congr_right' (Int.lt_add_one_iff (b := 0xFFFF)))

/-- BANK.C2P answers the offsets below `PRGSIZE` that agree with the address modulo the bank size. -/
theorem mem_execBankC2p_addr {s t : State} {l : List IntPort} {p : IntPort} (he : execBankC2p s = .next t)
    (ha : t.answer = some (.ok (.bankC2p l))) :
    p ∈ l ↔ 0 ≤ p.toInt ∧ p.toInt < s.prgSize.toInt ∧ p.toInt % s.bankSize.toInt = s.cpuAddr.toInt % s.bankSize.toInt := by
  obtain ⟨⟨hb, -⟩, rfl⟩ := execBankC2p_addr he ha
  rw [mem_map_toPort (cpuToPrg_fits hb), mem_cpuToPrg_iff hb]

/-- Settles O35: BANK.C2P's domain puts the address in the window and BANK.P2C's the offset at 0 or above, so what is left of both
memberships is the congruence. -/
theorem translationIsOneRelation : Obligations.TranslationIsOneRelation := by
  intro s t u v l m hs hl hu hm hbank hlt
  obtain ⟨-, hp, -⟩ := execBankP2c_addr hs hl
  obtain ⟨⟨-, hwin⟩, -⟩ := execBankC2p_addr hu hm
  rw [mem_execBankP2c_addr hs hl, mem_execBankC2p_addr hu hm, hbank]
  exact ⟨and_iff_right hwin, by rw [and_iff_right hp, and_iff_right hlt, eq_comm]⟩

end Sys2Proof.Machine
end

section
/-! PROOFS. The encodings of the block (30_encoding.md): the operation-select code and the status codes (R58 to R60), the header's fields and
its reserved bits (R44 to R51), and what the letters of a Game Genie code decode to (R55, R56). -/

namespace Sys2Proof.Machine

open Sys2Proof

/-! ### The operation-select code (R58, R59) -/

/-- A byte that carries a code is that code with zeros above it (log 9). -/
theorem eq_setWidth_of_byteCarriesOp {b : Byte} (h : byteCarriesOp b = true) : b = (b.setWidth 4).setWidth 8 := by
  have hlt : b.toNat < 16 := by simpa [byteCarriesOp] using h
  apply BitVec.eq_of_toNat_eq
  simp only [BitVec.toNat_setWidth]
  omega

theorem decode_encode_append (i : Instr) (rest : List Byte) : decode (encode i ++ rest) = .ok (i, rest) := by cases i <;> rfl

theorem decode_cons_of_carries {b : Byte} (h : byteCarriesOp b = true) (bs : List Byte) :
    decode (b :: bs) = (decodeOp (b.setWidth 4)).map fun i => (i, bs) := by
  rw [decode, if_pos h]
  cases decodeOp (b.setWidth 4) <;> rfl

theorem decode_cons_of_not_carries {b : Byte} (h : byteCarriesOp b = false) (bs : List Byte) :
    decode (b :: bs) = .error (.notFourBits b) := by
  simp [decode, h]

/-- Only an operation's own byte decodes to it. -/
theorem eq_encode_append_of_decode {bs rest : List Byte} {i : Instr} (h : decode bs = .ok (i, rest)) : bs = encode i ++ rest := by
  cases bs with
  | nil => cases h
  | cons b bs =>
    cases hb : byteCarriesOp b with
    | false => rw [decode_cons_of_not_carries hb] at h; cases h
    | true =>
      rw [decode_cons_of_carries hb] at h
      cases hd : decodeOp (b.setWidth 4) with
      | error r => rw [hd] at h; cases h
      | ok j =>
        rw [hd] at h
        cases h
        rw [eq_setWidth_of_byteCarriesOp hb, eq_opCode_of_decodeOp _ _ hd]
        rfl

/-- Settles O2: one lemma a direction. -/
theorem decodeAndEncodeAgree : Obligations.DecodeAndEncodeAgree :=
  ⟨decode_encode_append, fun _ _ _ => eq_encode_append_of_decode⟩

/-- The word of an operation's row has its encoding as bytes. -/
theorem wordBytes_opCode (i : Instr) : wordBytes 8 (opCode i).toNat = encode i := by cases i <;> rfl

theorem decodeTableWord_opCode (i : Instr) : decodeTableWord 8 (opCode i).toNat = some i := by
  have hd : decode (encode i) = .ok (i, []) := by simpa using decode_encode_append i []
  rw [decodeTableWord, wordBytes_opCode, hd]

/-- Settles O1: each row's word is the code of its operation. -/
theorem operationCodesDecode : Obligations.OperationCodesDecode :=
  ⟨decodeTableWord_opCode .hdrDec, decodeTableWord_opCode .hdrEnc, decodeTableWord_opCode .bankMin, decodeTableWord_opCode .bankMinc,
    decodeTableWord_opCode .bankIssw, decodeTableWord_opCode .bankP2c, decodeTableWord_opCode .bankC2p, decodeTableWord_opCode .bankC2pf,
    decodeTableWord_opCode .ggDec, decodeTableWord_opCode .ggEnc, decodeTableWord_opCode .tileDec, decodeTableWord_opCode .tileEnc⟩

theorem opCode_lt (i : Instr) : (opCode i).toNat < 12 := by cases i <;> decide

theorem exists_opCode_of_lt {op : BitVec 4} (h : op.toNat < 12) : ∃ i, op = opCode i := by
  have hall : ∀ op : BitVec 4, op.toNat < 12 → ∃ i ∈ Instr.all, op = opCode i := by decide
  obtain ⟨i, -, hi⟩ := hall op h
  exact ⟨i, hi⟩

/-- A step whose code selects no operation is refused. -/
theorem step_of_no_operation {s : State} {r : DecodeReject} (h : decodeOp s.op = .error r) : step s = .refused (.reservedOp s.op) := by
  rw [step, decode_fetch, h]

/-- Settles O3: a code from 12 on is no operation's, since those lie below 12; the codes below 12 are all taken. -/
theorem reservedCodesRefused : Obligations.ReservedCodesRefused := by
  refine ⟨fun s h => ?_, fun s h => ?_⟩
  · cases hd : decodeOp s.op with
    | error r => exact step_of_no_operation hd
    | ok i =>
      have hlt := opCode_lt i
      rw [← eq_opCode_of_decodeOp _ _ hd] at hlt
      omega
  · obtain ⟨i, hi⟩ := exists_opCode_of_lt h
    exact ⟨i, hi, step_of_op hi⟩

/-! ### The status code (R60) -/

/-- Settles O8: R60's table, row by row. -/
theorem statusCodesOfTheKinds : Obligations.StatusCodesOfTheKinds :=
  ⟨fun _ => rfl, rfl, rfl, rfl, rfl, rfl, rfl, rfl, rfl, rfl⟩

/-! ### The header's reserved bits (R51) -/

/-- HDR.DEC looks at its buffer through the magic bytes and the parsed fields only (R64). -/
theorem execHdrDec_congr {s u : State} (havail : s.avail = u.avail) (hlen : s.fileLen = u.fileLen)
    (hmagic : hasMagic s.hdrBuf = hasMagic u.hdrBuf) (hparse : parseHeader s.hdrBuf = parseHeader u.hdrBuf) :
    ∃ a, execHdrDec s = .next (s.setAnswer a) ∧ execHdrDec u = .next (u.setAnswer a) := by
  unfold execHdrDec readHeader
  rw [← havail, ← hlen, ← hmagic, ← hparse]
  split
  · exact ⟨_, rfl, rfl⟩
  · split
    · split
      · exact ⟨_, rfl, rfl⟩
      · exact ⟨_, rfl, rfl⟩
    · exact ⟨_, rfl, rfl⟩

theorem hasMagic_congr {b d : Vector Byte 16} (h : ∀ i : Fin 16, i.val < 7 → b[i] = d[i]) : hasMagic b = hasMagic d := by
  have h0 : b[0] = d[0] := h 0 (by decide)
  have h1 : b[1] = d[1] := h 1 (by decide)
  have h2 : b[2] = d[2] := h 2 (by decide)
  have h3 : b[3] = d[3] := h 3 (by decide)
  rw [hasMagic, hasMagic, h0, h1, h2, h3]

/-- Of byte 7 `parse` takes the high nibble, and nothing of the bytes after it (R65). -/
theorem parseHeader_congr {b d : Vector Byte 16} (h : ∀ i : Fin 16, i.val < 7 → b[i] = d[i]) (h7 : b[7].toNat / 16 = d[7].toNat / 16) :
    parseHeader b = parseHeader d := by
  have h4 : b[4] = d[4] := h 4 (by decide)
  have h5 : b[5] = d[5] := h 5 (by decide)
  have h6 : b[6] = d[6] := h 6 (by decide)
  rw [parseHeader_eq, parseHeader_eq, h4, h5, h6, h7]

/-- Settles O19: buffers that agree in the bits R44 gives a meaning have the same magic bytes and the same fields. -/
theorem reservedHeaderBitsIgnored : Obligations.ReservedHeaderBitsIgnored := fun s other hlow h7 =>
  execHdrDec_congr (s := s) (u := { s with hdrBuf := other }) rfl rfl (hasMagic_congr hlow).symm (parseHeader_congr hlow h7).symm

/-! ### The header's fields in both directions (R45 to R49) -/

/-- The fields on the ports of a decoded header, read from its bytes. -/
theorem execHdrDec_fields {s t : State} {h : Header} (he : execHdrDec s = .next t) (ha : t.answer = some (.ok (.hdrDec h))) :
    h.prgSize.toInt = (if s.hdrBuf[4].toNat = 0 then 256 else s.hdrBuf[4].toNat : Nat) * 16384 ∧
    h.chrSize.toInt = (s.hdrBuf[5].toNat : Int) * 8192 ∧
    h.trainerSize.toInt = (if s.hdrBuf[6].toNat / 4 % 2 = 1 then 512 else 0) ∧
    (h.xram = true ↔ s.hdrBuf[6].toNat / 2 % 2 = 1) ∧
    h.mapper.toInt = (s.hdrBuf[7].toNat / 16 : Nat) * 16 + (s.hdrBuf[6].toNat / 16 : Nat) := by
  obtain ⟨rfl, -⟩ := execHdrDec_header he ha
  obtain ⟨-, et, -, ep, -, ec, em⟩ := headerResult_ports s.hdrBuf
  rw [ep, ec, et, em, headerResult, parseHeader_eq]
  exact ⟨Nat.cast_mul _ _, Nat.cast_mul _ _, Nat.cast_ite _ _ _, decide_eq_true_iff, by push_cast; rfl⟩

/-- An HDR.ENC that completes was given legal operands, and packed them (R68). -/
theorem execHdrEnc_header {s t : State} {hdr : Vector Byte 16} (he : execHdrEnc s = .next t)
    (ha : t.answer = some (.ok (.hdrEnc hdr))) :
    ∃ (u c m : Nat) (r : Mirroring), (1 ≤ u ∧ u ≤ 256 ∧ s.prgSize.toInt = u * 16384) ∧ (c ≤ 255 ∧ s.chrSize.toInt = c * 8192) ∧
      (m ≤ 255 ∧ s.mapper.toInt = m) ∧ mirrOfCode s.mirr = some r ∧ hdr = packHeader (u * 16384) (c * 8192) m r s.xram := by
  rcases execHdrEnc_cases s with ⟨_, e⟩ | ⟨r, hr, ⟨_, e⟩ | ⟨_, _, e⟩ | ⟨_, _, _, e⟩ | ⟨hp, hc, hm, e⟩⟩ <;> rw [e] at he
  · cases he
  · rw [raise_next he] at ha; cases ha
  · rw [raise_next he] at ha; cases ha
  · rw [raise_next he] at ha; cases ha
  · rw [complete_next he] at ha
    cases ha
    obtain ⟨u, hu⟩ := validPrgSize_iff.1 hp
    obtain ⟨c, hc⟩ := validChrSize_iff.1 hc
    obtain ⟨m, hm⟩ := validMapper_iff.1 hm
    exact ⟨u, c, m, r, hu, hc, hm, hr, by rw [hu.2.2, hc.2, hm.2]⟩

theorem packHeader_byte4 {u c m : Nat} (hm : m ≤ 255) (r : Mirroring) (x : Bool) :
    (packHeader (u * 16384) (c * 8192) m r x)[4].toNat = u % 256 := by
  rw [packHeader_eq hm]
  exact Nat.mod_mod u 256

theorem packHeader_byte5 {u c m : Nat} (hc : c ≤ 255) (hm : m ≤ 255) (r : Mirroring) (x : Bool) :
    (packHeader (u * 16384) (c * 8192) m r x)[5].toNat = c := by
  rw [packHeader_eq hm]
  exact Nat.mod_eq_of_lt (by omega)

/-- The fields in the bytes of an encoded header. -/
theorem execHdrEnc_fields {s t : State} {hdr : Vector Byte 16} (he : execHdrEnc s = .next t)
    (ha : t.answer = some (.ok (.hdrEnc hdr))) :
    (hdr[4].toNat : Int) = s.prgSize.toInt / 16384 % 256 ∧ (hdr[5].toNat : Int) = s.chrSize.toInt / 8192 ∧
    hdr[6].toNat / 4 % 2 = 0 ∧ (s.xram = true ↔ hdr[6].toNat / 2 % 2 = 1) ∧
    (hdr[6].toNat / 16 : Nat) = s.mapper.toInt % 16 ∧ (hdr[7].toNat / 16 : Nat) = s.mapper.toInt / 16 := by
  obtain ⟨u, c, m, r, ⟨-, -, hu⟩, ⟨hc, hcs⟩, ⟨hm, hms⟩, -, rfl⟩ := execHdrEnc_header he ha
  obtain ⟨-, hnibble, -, htrainer, hxram, -⟩ := packedByte6_fields m r s.xram
  rw [packHeader_byte4 hm, packHeader_byte5 hc hm, packHeader_byte6 hm, packHeader_byte7 hm, hnibble, htrainer, hxram, hu, hcs, hms]
  refine ⟨by omega, by omega, rfl, ?_, by omega, by omega⟩
  cases s.xram <;> decide

/-- R68 step S1: a size without an encoding is the error, whatever else the operands hold. -/
theorem execHdrEnc_of_invalidPrgSize {s : State} (hmirr : s.mirr ≠ 3) (hp : validPrgSize s.prgSize.toInt = false) :
    execHdrEnc s = raise .invalidPrgSize s := by
  rcases execHdrEnc_cases s with ⟨h, _⟩ | ⟨_, _, ⟨_, e⟩ | ⟨h, _⟩ | ⟨h, _⟩ | ⟨h, _⟩⟩
  · exact absurd h hmirr
  · exact e
  all_goals rw [hp] at h; cases h

/-- R68 step S2. -/
theorem execHdrEnc_of_invalidChrSize {s : State} (hmirr : s.mirr ≠ 3) (hp : validPrgSize s.prgSize.toInt = true)
    (hc : validChrSize s.chrSize.toInt = false) : execHdrEnc s = raise .invalidChrSize s := by
  rcases execHdrEnc_cases s with ⟨h, _⟩ | ⟨_, _, ⟨h, _⟩ | ⟨_, _, e⟩ | ⟨_, h, _⟩ | ⟨_, h, _⟩⟩
  · exact absurd h hmirr
  · rw [hp] at h; cases h
  · exact e
  all_goals rw [hc] at h; cases h

/-- An HDR.ENC that answers was given a code that names a mirroring kind (R71). -/
theorem mirr_ne_three_of_next {s t : State} (he : execHdrEnc s = .next t) : s.mirr ≠ 3 := by
  intro h
  rw [execHdrEnc, mirrOfCode_none_iff.2 h] at he
  cases he

/-- A size of 0 has no encoding (R45). -/
theorem execHdrEnc_prgSize_zero {s t : State} (he : execHdrEnc s = .next t) (hz : s.prgSize.toInt = 0) :
    t.answer = some (.error .invalidPrgSize) := by
  rw [execHdrEnc_of_invalidPrgSize (mirr_ne_three_of_next he) (by rw [hz]; decide)] at he
  rw [raise_next he, setAnswer_answer]

/-- 256 units of CHR have no encoding (R46). -/
theorem execHdrEnc_chrSize_256 {s t : State} (he : execHdrEnc s = .next t) (hp : LegalPrgSize s.prgSize.toInt)
    (hc : s.chrSize.toInt = 256 * 8192) : t.answer = some (.error .invalidChrSize) := by
  rw [execHdrEnc_of_invalidChrSize (mirr_ne_three_of_next he) (validPrgSize_iff.2 hp) (by rw [hc]; decide)] at he
  rw [raise_next he, setAnswer_answer]

/-- The longest header declares 16 + 512 + 256 × 16384 + 255 × 8192 bytes (R66). -/
theorem requiredLength_le (b : Vector Byte 16) : requiredLength (parseHeader b) ≤ 6283792 := by
  obtain ⟨-, hprg, -, hchr, -, htrn, -⟩ := parseHeader_bounds b
  simp only [requiredLength, hdrLen]
  omega

/-- HDR.DEC presented with the header of `u` and `c` units and a file of the greatest length. -/
def unitsDecodeState (u c : Nat) : State :=
  { State.reset with
    avail := 16
    fileLen := 0x7FFFFFFF
    hdrBuf := packHeader (u * 16384) (c * 8192) 0 .horizontal false }

/-- Every legal pair of sizes is some header's. -/
theorem execHdrDec_unitsDecodeState {u c : Nat} (hu1 : 1 ≤ u) (hu : u ≤ 256) (hc : c ≤ 255) :
    execHdrDec (unitsDecodeState u c) =
      complete (.hdrDec (headerResult ⟨u * 16384, c * 8192, 0, .horizontal, false, 0⟩)) (unitsDecodeState u c) := by
  obtain ⟨hmagic, hparse⟩ := parseHeader_packHeader hu1 hu hc (Nat.zero_le 255) .horizontal false
  have hlen := requiredLength_le (unitsDecodeState u c).hdrBuf
  have havail : (unitsDecodeState u c).avail.toInt = 16 := rfl
  have hfile : (unitsDecodeState u c).fileLen.toInt = 0x7FFFFFFF := rfl
  rcases execHdrDec_cases (unitsDecodeState u c) with ⟨h, _⟩ | ⟨_, h, _⟩ | ⟨_, _, h, _⟩ | ⟨_, _, _, e⟩
  · omega
  · exact absurd hmagic (ne_true_of_eq_false h)
  · omega
  · rw [e, ← hparse]; rfl

/-- Settles O23: the four parts are lemmas of their own; the sizes of the last one are those of `unitsDecodeState`. -/
theorem headerFieldsBothWays : Obligations.HeaderFieldsBothWays := by
  refine ⟨fun s t h => execHdrDec_fields, fun s t hdr => execHdrEnc_fields,
    fun s t he => ⟨execHdrEnc_prgSize_zero he, execHdrEnc_chrSize_256 he⟩, fun u c hu1 hu hc => ?_⟩
  refine ⟨unitsDecodeState u c, _, _, execHdrDec_unitsDecodeState hu1 hu hc, rfl, ?_, ?_⟩
  · exact toPort_toInt (by push_cast; omega) (by push_cast; omega)
  · exact toPort_toInt (by push_cast; omega) (by push_cast; omega)

/-! ### Game Genie codes letter by letter (R55, R56) -/

/-- Settles O38: six characters that spell letters are read as their values, whose triple is R55's. -/
theorem ggDecSixLetterLayout : Obligations.GgDecSixLetterLayout := by
  intro s n0 n1 n2 n3 n4 n5 hlen h0 h1 h2 h3 h4 h5
  have hdec := decodeCode_six hlen (readLetters_six h0 h1 h2 h3 h4 h5)
  rw [exec, execGgDec_of_ok hdec, decodeLetters_six, complete_eq]

/-- Settles O39: eight characters that spell letters are read as their values, whose triple is R56's. -/
theorem ggDecEightLetterLayout : Obligations.GgDecEightLetterLayout := by
  intro s n0 n1 n2 n3 n4 n5 n6 n7 hlen h0 h1 h2 h3 h4 h5 h6 h7
  have hdec := decodeCode_eight hlen (readLetters_eight h0 h1 h2 h3 h4 h5 h6 h7)
  rw [exec, execGgDec_of_ok hdec, decodeLetters_eight, complete_eq]

end Sys2Proof.Machine
end

section
/-! PROOFS. The iNES header codec (40_header_codec.md R64 to R71): HDR.DEC and HDR.ENC step by step, and how each undoes the other; with the
operations that never stop short of an answer (R71, U11). -/

namespace Sys2Proof.Machine

open Sys2Proof

/-! ### HDR.DEC step by step (R64 to R67) -/

theorem execHdrDec_of_tooShort {s : State} (h : s.avail.toInt < 16) : execHdrDec s = raise .tooShort s := if_pos h

/-- With sixteen bytes available the magic bytes are tested first, then the length (R64 steps S3 to S5). -/
theorem execHdrDec_of_avail {s : State} (h : 16 ≤ s.avail.toInt) :
    execHdrDec s =
      if hasMagic s.hdrBuf then
        if (requiredLength (parseHeader s.hdrBuf) : Int) > s.fileLen.toInt then raise .truncated s
        else complete (.hdrDec (headerResult (parseHeader s.hdrBuf))) s
      else raise .badMagic s :=
  if_neg (not_lt.2 h)

theorem execHdrDec_of_badMagic {s : State} (havail : 16 ≤ s.avail.toInt) (h : ¬ MagicGood s.hdrBuf) :
    execHdrDec s = raise .badMagic s := by
  rw [execHdrDec_of_avail havail, if_neg (hasMagic_iff.not.2 h)]

theorem execHdrDec_of_truncated {s : State} (havail : 16 ≤ s.avail.toInt) (hmagic : MagicGood s.hdrBuf)
    (h : s.fileLen.toInt < requiredLength (parseHeader s.hdrBuf)) : execHdrDec s = raise .truncated s := by
  rw [execHdrDec_of_avail havail, if_pos (hasMagic_iff.2 hmagic), if_pos h]

theorem execHdrDec_of_fits {s : State} (havail : 16 ≤ s.avail.toInt) (hmagic : MagicGood s.hdrBuf)
    (h : requiredLength (parseHeader s.hdrBuf) ≤ s.fileLen.toInt) :
    execHdrDec s = complete (.hdrDec (headerResult (parseHeader s.hdrBuf))) s := by
  rw [execHdrDec_of_avail havail, if_pos (hasMagic_iff.2 hmagic), if_neg (not_lt.2 h)]

/-- A header that HDR.DEC returns stood behind the magic bytes (R64 step S3). -/
theorem execHdrDec_magic {s t : State} {h : Header} (he : execHdrDec s = .next t) (ha : t.answer = some (.ok (.hdrDec h))) :
    MagicGood s.hdrBuf := by
  rcases execHdrDec_cases s with ⟨_, e⟩ | ⟨_, _, e⟩ | ⟨_, hmagic, _⟩ | ⟨_, hmagic, _⟩
  · rw [e] at he; rw [raise_next he] at ha; cases ha
  · rw [e] at he; rw [raise_next he] at ha; cases ha
  all_goals exact hasMagic_iff.1 hmagic

/-- The length the header declares, from its bytes (R44, R66). -/
theorem requiredLength_parseHeader (b : Vector Byte 16) :
    (requiredLength (parseHeader b) : Int) = 16 + (if b[6].toNat / 4 % 2 = 1 then (512 : Int) else 0) +
      ((if b[4].toNat = 0 then 256 else b[4].toNat : Nat) : Int) * 16384 + (b[5].toNat : Int) * 8192 := by
  rw [parseHeader_eq]
  simp only [requiredLength, hdrLen]
  push_cast
  rfl

/-- The nine ports of a decoded header, from its bytes (R44, R67). -/
theorem headerResult_parseHeader (b : Vector Byte 16) :
    headerResult (parseHeader b) =
      let trn : Int := if b[6].toNat / 4 % 2 = 1 then 512 else 0
      let prg : Int := (if b[4].toNat = 0 then 256 else b[4].toNat : Nat) * 16384
      { trainerStart := 16, trainerSize := toPort trn, prgStart := toPort (16 + trn), prgSize := toPort prg,
        chrStart := toPort (16 + trn + prg), chrSize := toPort (b[5].toNat * 8192),
        mapper := toPort ((b[7].toNat / 16 : Nat) * 16 + (b[6].toNat / 16 : Nat)),
        mirr := if b[6].toNat / 8 % 2 = 1 then 2 else if b[6].toNat % 2 = 1 then 1 else 0,
        xram := decide (b[6].toNat / 2 % 2 = 1) } := by
  rw [parseHeader_eq, headerResult, apply_ite mirrCode, apply_ite mirrCode]
  push_cast
  rfl

/-- Settles O17: one lemma a step, and the ports read from the bytes. -/
theorem hdrDecSteps : Obligations.HdrDecSteps := by
  rintro s _ prg chr trn mapper mirr rfl rfl rfl rfl rfl rfl
  have hlen := requiredLength_parseHeader s.hdrBuf
  refine ⟨execHdrDec_of_tooShort, execHdrDec_of_badMagic, fun havail hmagic h => ?_, fun havail hmagic h => ?_⟩
  · exact execHdrDec_of_truncated havail hmagic (h.trans_eq hlen.symm)
  · rw [exec, execHdrDec_of_fits havail hmagic (hlen.trans_le h), headerResult_parseHeader]
    rfl

/-! ### HDR.ENC step by step (R68, R69, R71) -/

theorem execHdrEnc_of_mirr_three {s : State} (h : s.mirr = 3) : execHdrEnc s = .refused .mirrCodeReserved := by
  rw [execHdrEnc, mirrOfCode_none_iff.2 h]

/-- R68 step S3. -/
theorem execHdrEnc_of_invalidMapper {s : State} (hmirr : s.mirr ≠ 3) (hp : validPrgSize s.prgSize.toInt = true)
    (hc : validChrSize s.chrSize.toInt = true) (hm : validMapper s.mapper.toInt = false) : execHdrEnc s = raise .invalidMapper s := by
  rcases execHdrEnc_cases s with ⟨h, _⟩ | ⟨_, _, ⟨h, _⟩ | ⟨_, h, _⟩ | ⟨_, _, _, e⟩ | ⟨_, _, h, _⟩⟩
  · exact absurd h hmirr
  · rw [hp] at h; cases h
  · rw [hc] at h; cases h
  · exact e
  · rw [hm] at h; cases h

/-- R68 step S4: legal operands are packed. -/
theorem execHdrEnc_of_legal {s : State} {r : Mirroring} {u c m : Nat} (hmirr : s.mirr = mirrCode r) (hu1 : 1 ≤ u) (hu : u ≤ 256)
    (hprg : s.prgSize.toInt = u * 16384) (hc : c ≤ 255) (hchr : s.chrSize.toInt = c * 8192) (hm : m ≤ 255) (hmap : s.mapper.toInt = m) :
    execHdrEnc s = complete (.hdrEnc (packHeader (u * 16384) (c * 8192) m r s.xram)) s := by
  have hp := validPrgSize_iff.2 ⟨u, hu1, hu, hprg⟩
  have hcv := validChrSize_iff.2 ⟨c, hc, hchr⟩
  have hmv := validMapper_iff.2 ⟨m, hm, hmap⟩
  rw [execHdrEnc, hmirr, mirrOfCode_mirrCode, hp, hcv, hmv, hprg, hchr, hmap]
  rfl

theorem exists_mirrCode_eq {c : BitVec 2} (h : c ≠ 3) : ∃ r, c = mirrCode r := by
  cases hr : mirrOfCode c with
  | none => exact absurd (mirrOfCode_none_iff.1 hr) h
  | some r => exact ⟨r, (mirrCode_mirrOfCode hr).symm⟩

theorem mirrCode_eq_two_iff (r : Mirroring) : mirrCode r = 2 ↔ r = .fourScreen := by cases r <;> decide

theorem mirrCode_eq_one_iff (r : Mirroring) : mirrCode r = 1 ↔ r = .vertical := by cases r <;> decide

/-- Settles O20: one lemma a step, and the packed bytes by division and remainder. -/
theorem hdrEncSteps : Obligations.HdrEncSteps := by
  intro s
  refine ⟨execHdrEnc_of_mirr_three, fun hmirr hprg => ?_, fun hmirr u hu1 hu hprg => ?_⟩
  · exact execHdrEnc_of_invalidPrgSize hmirr (Bool.eq_false_iff.2 (validPrgSize_iff.not.2 hprg))
  have hp := validPrgSize_iff.2 ⟨u, hu1, hu, hprg⟩
  refine ⟨fun hchr => ?_, fun c hc hchr => ⟨fun hmap => ?_, fun m hm hmap => ?_⟩⟩
  · exact execHdrEnc_of_invalidChrSize hmirr hp (Bool.eq_false_iff.2 (validChrSize_iff.not.2 hchr))
  · exact execHdrEnc_of_invalidMapper hmirr hp (validChrSize_iff.2 ⟨c, hc, hchr⟩) (Bool.eq_false_iff.2 (validMapper_iff.not.2 hmap))
  · obtain ⟨r, hr⟩ := exists_mirrCode_eq hmirr
    rw [exec, execHdrEnc_of_legal hr hu1 hu hprg hc hchr hm hmap, packHeader_eq hm, complete_eq]
    simp only [hr, mirrCode_eq_two_iff, mirrCode_eq_one_iff]

/-! ### Decoding an encoded header (R70 a) -/

/-- The ports of a header without a trainer are those its fields come from, and CHR starts behind the PRG (R67). -/
theorem headerResult_of_ports {u c m : Nat} {r : Mirroring} {x : Bool} {prg chr map : IntPort} {mirr : BitVec 2}
    (hprg : prg.toInt = u * 16384) (hchr : chr.toInt = c * 8192) (hmap : map.toInt = m) (hmirr : mirr = mirrCode r) :
    headerResult ⟨u * 16384, c * 8192, 0, r, x, m⟩ =
      { trainerStart := 16, trainerSize := 0, prgStart := 16, prgSize := prg, chrStart := 16 + prg, chrSize := chr, mapper := map,
        mirr := mirr, xram := x } := by
  have ep : toPort ((u * 16384 : Nat) : Int) = prg := by rw [Nat.cast_mul, Nat.cast_ofNat, ← hprg, toPort_of_toInt]
  have ec : toPort ((c * 8192 : Nat) : Int) = chr := by rw [Nat.cast_mul, Nat.cast_ofNat, ← hchr, toPort_of_toInt]
  have em : toPort (m : Int) = map := by rw [← hmap, toPort_of_toInt]
  have es : toPort (16 + ((u * 16384 : Nat) : Int)) = 16 + prg := by rw [← ep]; exact BitVec.ofInt_add _ _
  simp only [headerResult, hdrLen, Nat.cast_zero, Nat.cast_ofNat, Int.add_zero, ep, ec, em, es, hmirr]
  rfl

/-- Settles O21: the packed header has the magic bytes and parses back to the packed fields (`parseHeader_packHeader`). -/
theorem headerDecodeInvertsEncode : Obligations.HeaderDecodeInvertsEncode := by
  intro s t v hdr hexec ha hbuf havail hlen
  obtain ⟨u, c, m, r, ⟨hu1, hu, hprg⟩, ⟨hc, hchr⟩, ⟨hm, hmap⟩, hr, rfl⟩ := execHdrEnc_header hexec ha
  obtain ⟨hmagic, hparse⟩ := parseHeader_packHeader hu1 hu hc hm r s.xram
  rw [← hbuf] at hmagic hparse
  have hfit : (requiredLength (parseHeader v.hdrBuf) : Int) ≤ v.fileLen.toInt := by
    simp only [hparse, requiredLength, hdrLen]
    omega
  rw [exec, execHdrDec_of_fits havail (hasMagic_iff.1 hmagic) hfit, hparse,
    headerResult_of_ports hprg hchr hmap (mirrCode_mirrOfCode hr).symm, complete_eq]

/-! ### Encoding a decoded header (R70 b) -/

/-- Byte 6 packed again from its own fields: the trainer bit is dropped, and bit 0 beside bit 3 (R50, R69, D6). -/
theorem packedByte6_parsed {n : Nat} (k : Nat) (htrainer : n / 4 % 2 = 0) (hmirr : ¬ (n / 8 % 2 = 1 ∧ n % 2 = 1)) (hn : n < 256) :
    packedByte6 (k * 16 + n / 16)
      (if n / 8 % 2 = 1 then .fourScreen else if n % 2 = 1 then .vertical else .horizontal) (decide (n / 2 % 2 = 1)) = n := by
  unfold packedByte6
  by_cases h3 : n / 8 % 2 = 1
  · have h0 : n % 2 ≠ 1 := fun h => hmirr ⟨h3, h⟩
    by_cases h1 : n / 2 % 2 = 1 <;> simp only [h3, h1, reduceCtorEq, if_true, if_false, decide_true, decide_false, Bool.false_eq_true] <;> omega
  · by_cases h0 : n % 2 = 1 <;> by_cases h1 : n / 2 % 2 = 1 <;>
      simp only [h3, h0, h1, reduceCtorEq, if_true, if_false, decide_true, decide_false, Bool.false_eq_true] <;> omega

/-- The header's units of PRG, the wraparound undone (R45). -/
def prgUnits (b : Vector Byte 16) : Nat := if b[4].toNat = 0 then 256 else b[4].toNat

theorem prgUnits_bounds (b : Vector Byte 16) : 1 ≤ prgUnits b ∧ prgUnits b ≤ 256 ∧ prgUnits b % 256 = b[4].toNat := by
  have h4 := b[4].isLt
  unfold prgUnits
  split <;> omega

/-- The mapper number in the header's two nibbles (R49). -/
def headerMapper (b : Vector Byte 16) : Nat := b[7].toNat / 16 * 16 + b[6].toNat / 16

theorem headerMapper_le (b : Vector Byte 16) : headerMapper b ≤ 255 := by
  have h6 := b[6].isLt
  have h7 := b[7].isLt
  unfold headerMapper
  omega

theorem parseHeader_prgSize (b : Vector Byte 16) : (parseHeader b).prgSize = prgUnits b * 16384 := by rw [parseHeader_eq]; rfl

theorem parseHeader_chrSize (b : Vector Byte 16) : (parseHeader b).chrSize = b[5].toNat * 8192 := by rw [parseHeader_eq]

theorem parseHeader_mapper (b : Vector Byte 16) : (parseHeader b).mapper = headerMapper b := by rw [parseHeader_eq]; rfl

/-- What HDR.ENC packs from the fields of a header. -/
def reencodedHeader (b : Vector Byte 16) : Vector Byte 16 :=
  packHeader (prgUnits b * 16384) (b[5].toNat * 8192) (headerMapper b) (parseHeader b).mirroring (parseHeader b).extraRam

/-- HDR.ENC on the ports of a decoded header always completes (R70). -/
theorem execHdrEnc_of_decoded {u : State} {b : Vector Byte 16} (hprg : u.prgSize = (headerResult (parseHeader b)).prgSize)
    (hchr : u.chrSize = (headerResult (parseHeader b)).chrSize) (hmap : u.mapper = (headerResult (parseHeader b)).mapper)
    (hmirr : u.mirr = (headerResult (parseHeader b)).mirr) (hxram : u.xram = (headerResult (parseHeader b)).xram) :
    execHdrEnc u = complete (.hdrEnc (reencodedHeader b)) u := by
  obtain ⟨-, -, -, ep, -, ec, em⟩ := headerResult_ports b
  obtain ⟨hu1, hu, -⟩ := prgUnits_bounds b
  have hc : b[5].toNat ≤ 255 := Nat.le_of_lt_succ b[5].isLt
  have hp : u.prgSize.toInt = prgUnits b * 16384 := by rw [hprg, ep, parseHeader_prgSize, Nat.cast_mul, Nat.cast_ofNat]
  have hch : u.chrSize.toInt = b[5].toNat * 8192 := by rw [hchr, ec, parseHeader_chrSize, Nat.cast_mul, Nat.cast_ofNat]
  have hm : u.mapper.toInt = headerMapper b := by rw [hmap, em, parseHeader_mapper]
  rw [execHdrEnc_of_legal hmirr hu1 hu hp hc hch (headerMapper_le b) hm, hxram]
  rfl

/-- A canonical header is packed back byte by byte. -/
theorem reencodedHeader_of_canonical {b : Vector Byte 16} (hmagic : MagicGood b) (hb : canonicalHeader b) : reencodedHeader b = b := by
  obtain ⟨h0, h1, h2, h3⟩ := hmagic
  obtain ⟨htrainer, hmirr, hlow7, hrest⟩ := hb
  have hle := headerMapper_le b
  have h4 : (reencodedHeader b)[4] = b[4] := BitVec.eq_of_toNat_eq ((packHeader_byte4 hle _ _).trans (prgUnits_bounds b).2.2)
  have h5 : (reencodedHeader b)[5] = b[5] := BitVec.eq_of_toNat_eq (packHeader_byte5 (Nat.le_of_lt_succ b[5].isLt) hle _ _)
  have h6 : (reencodedHeader b)[6] = b[6] := by
    apply BitVec.eq_of_toNat_eq
    rw [reencodedHeader, packHeader_byte6 hle, parseHeader_eq]
    exact packedByte6_parsed _ htrainer hmirr b[6].isLt
  have h7 : (reencodedHeader b)[7] = b[7] := by
    apply BitVec.eq_of_toNat_eq
    have := b[6].isLt
    rw [reencodedHeader, packHeader_byte7 hle, headerMapper]
    omega
  apply Vector.ext
  intro i hi
  by_cases h8 : 8 ≤ i
  · have hz : b[i] = 0 := hrest ⟨i, hi⟩ h8
    rw [hz]
    interval_cases i <;> rfl
  · interval_cases i
    · exact h0.symm
    · exact h1.symm
    · exact h2.symm
    · exact h3.symm
    · exact h4
    · exact h5
    · exact h6
    · exact h7

/-- Settles O22: what HDR.ENC packs is canonical, and a canonical header is packed back as it was. -/
theorem headerReencodingIsExactOnCanonical : Obligations.HeaderReencodingIsExactOnCanonical := by
  intro s t u h hexec ha hprg hchr hmap hmirr hxram
  obtain ⟨rfl, -⟩ := execHdrDec_header hexec ha
  refine ⟨reencodedHeader s.hdrBuf, execHdrEnc_of_decoded hprg hchr hmap hmirr hxram, fun hsame => ?_, fun hcanon => ?_⟩
  · exact hsame ▸ packHeader_canonical (headerMapper_le s.hdrBuf) _ _
  · exact reencodedHeader_of_canonical (execHdrDec_magic hexec ha) hcanon

/-! ### What is refused (R71, U11) -/

/-- HDR.ENC is refused for `MIRR` 3 only. -/
theorem execHdrEnc_refused {s : State} {r : Refusal} (h : execHdrEnc s = .refused r) : s.mirr = 3 ∧ r = .mirrCodeReserved := by
  rcases execHdrEnc_cases s with ⟨hmirr, e⟩ | ⟨_, _, ⟨_, e⟩ | ⟨_, _, e⟩ | ⟨_, _, _, e⟩ | ⟨_, _, _, e⟩⟩ <;> rw [e] at h
  · cases h; exact ⟨hmirr, rfl⟩
  all_goals cases h

/-- BANK.C2PF is refused on its domain for a short buffer only. -/
theorem execBankC2pf_refused {s : State} {r : Refusal} (h : execBankC2pf s = .refused r) :
    r = .prgBufferShort ∧ (s.prg.size : Int) < s.prgSize.toInt ∧ cpuDomain s := by
  rcases execBankC2pf_cases s with ⟨_, e⟩ | ⟨hd, hshort, e⟩ | ⟨_, _, e⟩ <;> rw [e] at h
  · cases h
  · cases h; exact ⟨rfl, hshort, hd⟩
  · cases h

/-- Every other operation answers, whatever its operands. -/
theorem exec_answers {i : Instr} (s : State) (henc : i ≠ .hdrEnc) (hc2pf : i ≠ .bankC2pf) : ∃ a, exec i s = .next (s.setAnswer a) := by
  cases i with
  | hdrEnc => exact absurd rfl henc
  | bankC2pf => exact absurd rfl hc2pf
  | hdrDec => rcases execHdrDec_cases s with ⟨_, e⟩ | ⟨_, _, e⟩ | ⟨_, _, _, e⟩ | ⟨_, _, _, e⟩ <;> exact ⟨_, e⟩
  | bankP2c => rcases execBankP2c_cases s with ⟨_, e⟩ | ⟨_, _, e⟩ <;> exact ⟨_, e⟩
  | bankC2p => rcases execBankC2p_cases s with ⟨_, e⟩ | ⟨_, e⟩ <;> exact ⟨_, e⟩
  | ggDec =>
    cases h : decodeCode s.len.toInt s.code with
    | error e => exact ⟨_, execGgDec_of_error h⟩
    | ok t => exact ⟨_, execGgDec_of_ok h⟩
  | ggEnc =>
    cases h : validTriple s.address.toInt s.replacement.toInt (compareOperand s) with
    | false => exact ⟨_, execGgEnc_of_invalid h⟩
    | true => exact ⟨_, execGgEnc_of_valid h⟩
  | bankMin | bankMinc | bankIssw | tileDec | tileEnc => exact ⟨_, rfl⟩

/-- Settles O12: HDR.ENC and BANK.C2PF for the causes of their own lemmas, and no other operation. -/
theorem refusalsAreTheTwoNamed : Obligations.RefusalsAreTheTwoNamed := by
  intro i s r h
  by_cases henc : i = .hdrEnc
  · subst henc
    exact .inl ⟨rfl, execHdrEnc_refused h⟩
  by_cases hc2pf : i = .bankC2pf
  · subst hc2pf
    obtain ⟨hr, hshort, hbank, hwin⟩ := execBankC2pf_refused h
    exact .inr ⟨rfl, hr, hshort, hbank, hwin⟩
  obtain ⟨a, e⟩ := exec_answers s henc hc2pf
  rw [e] at h
  cases h

end Sys2Proof.Machine
end

section
/-! PROOFS. The mapper bank-size table and the address translator (41_bank_translator.md): what the table operations answer (R72 to R76), the
translator's domain (R77, R80), and its sequences with their order, their counts and their filter (R74, R78 to R84). -/

namespace Sys2Proof.Machine

open Sys2Proof

/-! ### The table operations (R72 to R76) -/

/-- A `MAPPER` that is a key looks up that key's size (R72). -/
theorem lookupMapper_of_key {t : MapperTable} {m : Int} {k : Fin 256} {b : BankSize} (ht : mapperTableWf t) (hk : (k, b) ∈ t)
    (hm : m = k.val) : lookupMapper t m = (bankBytes b, false) :=
  hm ▸ lookupMapper_mem ht hk

/-- The minimum of R75 on its port: `PRGSIZE` itself, or the other value's port where that is the smaller. -/
theorem toPort_min (z : Int) (p : IntPort) : toPort (min z p.toInt) = if p.toInt ≤ z then p else toPort z := by
  split
  · rw [min_eq_right ‹p.toInt ≤ z›, toPort_of_toInt]
  · rw [min_eq_left (le_of_not_ge ‹¬ p.toInt ≤ z›)]

section OfLookup
variable {s : State} {z : Int} {f : Bool}

theorem execBankMin_of_lookup (h : lookupMapper s.mapperTable s.mapper.toInt = (z, f)) :
    execBankMin s = complete (.bankMin (toPort z) f) s := by
  rw [execBankMin, h]

theorem execBankMinc_of_lookup (h : lookupMapper s.mapperTable s.mapper.toInt = (z, f)) :
    execBankMinc s = complete (.bankMinc (if s.prgSize.toInt ≤ z then s.prgSize else toPort z) f) s := by
  rw [execBankMinc, h, toPort_min]

theorem execBankIssw_of_lookup (h : lookupMapper s.mapperTable s.mapper.toInt = (z, f)) :
    execBankIssw s = complete (.bankIssw (decide (z < s.prgSize.toInt)) f) s := by
  rw [execBankIssw, h]

end OfLookup

/-- Settles O24: the lookup is the key's size, or the fallback where no key matches. -/
theorem bankMinAnswers : Obligations.BankMinAnswers := by
  refine fun s ht => ⟨fun k b hk hm => ?_, fun h => execBankMin_of_lookup (lookupMapper_absent h)⟩
  have e := execBankMin_of_lookup (lookupMapper_of_key ht hk hm)
  cases b <;> exact e

/-- Settles O25: `toPort_min` of the looked-up size. -/
theorem bankMincAnswers : Obligations.BankMincAnswers := by
  refine fun s ht => ⟨fun k b z hk hm hz => ?_, fun h => execBankMinc_of_lookup (lookupMapper_absent h)⟩
  have hz' : bankBytes b = z := hz ▸ rfl
  exact hz' ▸ execBankMinc_of_lookup (lookupMapper_of_key ht hk hm)

/-- Settles O26: the comparison is with the looked-up size. -/
theorem bankIsswAnswers : Obligations.BankIsswAnswers := by
  refine fun s ht => ⟨fun k b z hk hm hz => ?_, fun h => execBankIssw_of_lookup (lookupMapper_absent h)⟩
  have hz' : bankBytes b = z := hz ▸ rfl
  exact hz' ▸ execBankIssw_of_lookup (lookupMapper_of_key ht hk hm)

/-- Settles O28: keys lie in 0 to 255, so such a number is none of them. -/
theorem numbersBeyondTheHeaderAreUnknown : Obligations.NumbersBeyondTheHeaderAreUnknown := by
  intro s hm
  refine execBankMin_of_lookup (lookupMapper_absent fun e _ => ?_)
  have := e.1.isLt
  omega

/-! ### The translator's domain (R77, R80, U11) -/

theorem not_cpuDomain_iff {s : State} :
    ¬ cpuDomain s ↔ s.bankSize.toInt ∉ [8192, 16384, 32768] ∨ s.cpuAddr.toInt < 0x8000 ∨ 0xFFFF < s.cpuAddr.toInt := by
  rw [cpuDomain, not_and_or, not_and_or, not_le, not_le]

section Domain
variable {s : State}

theorem execBankP2c_of_outside (h : s.bankSize.toInt ∉ [8192, 16384, 32768] ∨ s.prgAddr.toInt < 0) :
    execBankP2c s = raise .addressOutOfRange s := by
  rcases execBankP2c_cases s with ⟨_, e⟩ | ⟨hb, hp, _⟩
  · exact e
  · exact absurd h (not_or.2 ⟨not_not.2 hb, not_lt.2 hp⟩)

theorem execBankP2c_of_domain (hb : s.bankSize.toInt ∈ [8192, 16384, 32768]) (hp : 0 ≤ s.prgAddr.toInt) :
    execBankP2c s = complete (.bankP2c ((prgToCpu s.prgAddr.toInt s.bankSize.toInt).map toPort)) s := by
  rcases execBankP2c_cases s with ⟨h, _⟩ | ⟨_, _, e⟩
  · exact absurd h (not_or.2 ⟨not_not.2 hb, not_lt.2 hp⟩)
  · exact e

theorem execBankC2p_of_outside (h : ¬ cpuDomain s) : execBankC2p s = raise .addressOutOfRange s := by
  rcases execBankC2p_cases s with ⟨_, e⟩ | ⟨hd, _⟩
  · exact e
  · exact absurd hd h

theorem execBankC2p_of_domain (h : cpuDomain s) :
    execBankC2p s = complete (.bankC2p ((cpuToPrg s.cpuAddr.toInt s.bankSize.toInt s.prgSize.toInt).map toPort)) s := by
  rcases execBankC2p_cases s with ⟨hd, _⟩ | ⟨_, e⟩
  · exact absurd h hd
  · exact e

theorem execBankC2pf_of_outside (h : ¬ cpuDomain s) : execBankC2pf s = raise .addressOutOfRange s := by
  rcases execBankC2pf_cases s with ⟨_, e⟩ | ⟨hd, _⟩ | ⟨hd, _⟩
  · exact e
  · exact absurd hd h
  · exact absurd hd h

theorem execBankC2pf_of_short (h : cpuDomain s) (hz : (s.prg.size : Int) < s.prgSize.toInt) :
    execBankC2pf s = .refused .prgBufferShort := by
  rcases execBankC2pf_cases s with ⟨hd, _⟩ | ⟨_, _, e⟩ | ⟨_, hz', _⟩
  · exact absurd h hd
  · exact e
  · exact absurd hz (not_lt.2 hz')

theorem execBankC2pf_of_domain (h : cpuDomain s) (hz : s.prgSize.toInt ≤ s.prg.size) :
    execBankC2pf s =
      complete (.bankC2pf ((filterByByte s (cpuToPrg s.cpuAddr.toInt s.bankSize.toInt s.prgSize.toInt)).map toPort)) s := by
  rcases execBankC2pf_cases s with ⟨hd, _⟩ | ⟨_, hz', _⟩ | ⟨_, _, e⟩
  · exact absurd h hd
  · exact absurd hz (not_le.2 hz')
  · exact e

end Domain

/-- Settles O29: the domain tests come first in all three operations. -/
theorem translatorRejectsOutsideDomain : Obligations.TranslatorRejectsOutsideDomain := fun _ =>
  ⟨execBankP2c_of_outside,
    fun h => ⟨execBankC2p_of_outside (not_cpuDomain_iff.2 h), execBankC2pf_of_outside (not_cpuDomain_iff.2 h)⟩⟩

/-- Settles O33: `execBankC2pf_refused` has the condition of the refusal, `execBankC2pf_of_short` the refusal under it. -/
theorem bankC2pfRefusesShortBuffer : Obligations.BankC2pfRefusesShortBuffer := by
  intro s
  constructor
  · intro h
    obtain ⟨-, hshort, hb, hlo, hhi⟩ := execBankC2pf_refused h
    exact ⟨hb, hlo, hhi, hshort⟩
  · rintro ⟨hb, hlo, hhi, hshort⟩
    exact execBankC2pf_of_short ⟨hb, hlo, hhi⟩ hshort

/-! ### The translator's sequences (R78 to R82) -/

theorem prgToCpu_ascending {p b : Int} (hb : b ∈ [8192, 16384, 32768]) : ascending ((prgToCpu p b).map toPort) :=
  ascending_map_toPort (prgToCpu_fits hb) (sequenceBelow_ascending (bankSize_pos hb))

/-- R79: one address per bank slot of the window. -/
theorem prgToCpu_length_eq {p b : Int} (hb : b ∈ [8192, 16384, 32768]) : ((prgToCpu p b).length : Int) = 32768 / b := by
  have hlen : ((prgToCpu p b).length : Int) = _ := sequenceBelow_length (bankSize_pos hb)
  simp only [cpuWinLo, cpuTop] at hlen
  simp only [List.mem_cons, List.not_mem_nil, or_false] at hb
  rcases hb with rfl | rfl | rfl <;> omega

/-- Settles O30: the sequence of R78, on ports that lose none of its addresses. -/
theorem bankP2cAnswers : Obligations.BankP2cAnswers := by
  rintro s _ rfl hb hp
  refine ⟨_, execBankP2c_of_domain hb hp, fun a => ?_, prgToCpu_ascending hb, ?_⟩
  · rw [mem_map_toPort (prgToCpu_fits hb), mem_prgToCpu hb]
    simp only [add_right_comm]
  · rw [List.length_map, prgToCpu_length_eq hb]

/-- Settles O31: the sequence of R81, on ports that lose none of its offsets. -/
theorem bankC2pAnswers : Obligations.BankC2pAnswers := by
  rintro s _ rfl hb hlo hhi
  refine ⟨_, execBankC2p_of_domain ⟨hb, hlo, hhi⟩, fun p => ?_, (offsets_inRange hb (List.Sublist.refl _)).1, ?_⟩
  · rw [mem_map_toPort (cpuToPrg_fits hb), mem_cpuToPrg hb]
  · rw [List.length_map]
    exact sequenceBelow_length (bankSize_pos hb)

/-! ### The filtered sequence (R84) -/

/-- Filtering the candidates and then writing them on ports is filtering the ports by the byte each one names. -/
theorem filterByByte_map_toPort {s : State} {l : List Int} (hfit : ∀ v ∈ l, -2 ^ 31 ≤ v ∧ v < 2 ^ 31) :
    (filterByByte s l).map toPort = (l.map toPort).filter fun p => memRead .prg p.toInt.toNat s == some s.compareByte := by
  rw [filterByByte, List.filter_map]
  congr 1
  refine List.filter_congr fun v hv => ?_
  rw [Function.comp_apply, toPort_toInt (hfit v hv).1 (hfit v hv).2]

/-- Settles O32: with a long enough buffer both operations hold the same candidates, and the filter passes through the ports. -/
theorem bankC2pfAnswers : Obligations.BankC2pfAnswers := by
  refine fun s => ⟨fun h => execBankC2pf_of_outside (not_cpuDomain_iff.2 h), fun hb hlo hhi hz => ?_⟩
  have hd : cpuDomain s := ⟨hb, hlo, hhi⟩
  refine ⟨_, execBankC2p_of_domain hd, ?_⟩
  rw [← filterByByte_map_toPort (cpuToPrg_fits hb)]
  exact execBankC2pf_of_domain hd hz

/-! ### Translations compared (R74, R83) -/

/-- Settles O34: an address that BANK.P2C gives lies in the window, so BANK.C2P completes on it, and the congruence of R40 is symmetric. -/
theorem translationInverse : Obligations.TranslationInverse := by
  intro s t u l hs hl hmem hbank hlt
  obtain ⟨hb, hp, -⟩ := execBankP2c_addr hs hl
  obtain ⟨hwin, hmod⟩ := (mem_execBankP2c_addr hs hl).1 hmem
  have hu := execBankC2p_of_domain (s := u) ⟨hbank ▸ hb, hwin⟩
  refine ⟨_, hu, (mem_execBankC2p_addr hu rfl).2 ⟨hp, hlt, ?_⟩⟩
  rw [hbank, hmod]

/-- Settles O36: numbers that agree modulo `2b` agree modulo `b`, and nothing else in either relation depends on the bank size. -/
theorem smallerBankGivesSuperset : Obligations.SmallerBankGivesSuperset := by
  rintro s u b - hsb hub
  have hmod {x y : Int} (h : x % u.bankSize.toInt = y % u.bankSize.toInt) : x % s.bankSize.toInt = y % s.bankSize.toInt := by
    rw [hub] at h
    rw [hsb]
    exact Int.ModEq.of_mul_left 2 h
  constructor
  · intro t v l m haddr hs hl hu hm a ha
    obtain ⟨hwin, hcong⟩ := (mem_execBankP2c_addr hu hm).1 ha
    exact (mem_execBankP2c_addr hs hl).2 ⟨hwin, haddr ▸ hmod hcong⟩
  · intro t v l m haddr hprg hs hl hu hm p hp
    obtain ⟨h0, hlt, hcong⟩ := (mem_execBankC2p_addr hu hm).1 hp
    exact (mem_execBankC2p_addr hs hl).2 ⟨h0, hprg ▸ hlt, haddr ▸ hmod hcong⟩

end Sys2Proof.Machine
end

section
/-! PROOFS. The Game Genie cipher (42_game_genie.md R86 to R95): what GG.DEC and GG.ENC reject, the letters of an encoded triple, and decoding
and encoding as inverses up to the one bit that carries nothing. -/

namespace Sys2Proof.Machine

open Sys2Proof

/-! ### What GG.DEC rejects (R87) -/

/-- A code that is read has a letter at each of its places (R87 step S2). -/
theorem spells_of_readLetters {code : Vector Byte 8} {l : Nat} {n : List Nibble} (hl : l ≤ 8) (h : readLetters code l = some n)
    {i : Fin 8} (hi : i.val < l) : ∃ v, SpellsLetter code[i] v := by
  have hv := value_of_readLetters h i hi
  rw [List.getElem?_eq_getElem (by rwa [length_of_readLetters hl h])] at hv
  exact ⟨_, letterValue_iff.1 hv⟩

theorem decodeCode_of_badLength {len : Int} {code : Vector Byte 8} (h : len ≠ 6 ∧ len ≠ 8) :
    decodeCode len code = .error .invalidCode := by
  rcases decodeCode_cases len code with ⟨-, -, e⟩ | ⟨l, hl, -⟩
  · exact e
  · omega

theorem decodeCode_of_badLetter {len : Int} {code : Vector Byte 8} {i : Fin 8} (hi : (i.val : Int) < len)
    (h : ∀ v, ¬ SpellsLetter code[i] v) : decodeCode len code = .error .invalidCode := by
  rcases decodeCode_cases len code with ⟨-, -, e⟩ | ⟨l, hl, ⟨-, e⟩ | ⟨n, hn, -⟩⟩
  · exact e
  · exact e
  · obtain ⟨v, hv⟩ := spells_of_readLetters (by omega) hn (i := i) (by omega)
    exact absurd hv (h v)

/-- Settles O37: one lemma for each of R87's two causes. -/
theorem ggDecRejects : Obligations.GgDecRejects := by
  rintro s (hlen | ⟨-, i, hi, h⟩)
  · exact execGgDec_of_error (decodeCode_of_badLength hlen)
  · exact execGgDec_of_error (decodeCode_of_badLetter hi h)

/-! ### The operands of GG.ENC as a triple (R27, R91) -/

/-- The triple that GG.ENC is given (R91). -/
def operandTriple (s : State) : Triple :=
  if s.hasCmp then .eightLetter s.address s.replacement s.compareInt else .sixLetter s.address s.replacement

/-- A triple that R91 lets through. -/
def Triple.Valid (t : Triple) : Prop :=
  (0 ≤ t.address.toInt ∧ t.address.toInt ≤ 0xFFFF) ∧ portInByte t.replacement ∧ ∀ c, t.compare = some c → portInByte c

/-- The letter values that GG.ENC gives for a triple (R92, R93). -/
def tripleLetters : Triple → List Nibble
  | .sixLetter a r     => distribute (packSix (BitVec.ofInt 16 a.toInt) (BitVec.ofInt 8 r.toInt)) 6
  | .eightLetter a r c => distribute (packEight (BitVec.ofInt 16 a.toInt) (BitVec.ofInt 8 r.toInt) (BitVec.ofInt 8 c.toInt)) 8

theorem length_tripleLetters (t : Triple) : (tripleLetters t).length = t.len := by
  cases t with
  | sixLetter a r => rw [tripleLetters, distribute_six]; rfl
  | eightLetter a r c => rw [tripleLetters, distribute_eight]; rfl

theorem validTriple_iff_valid (t : Triple) :
    validTriple t.address.toInt t.replacement.toInt (t.compare.map BitVec.toInt) = true ↔ t.Valid := by
  cases t <;> simp [validTriple_iff, Triple.Valid, Triple.compare, portInByte]

theorem encodeTriple_eq (t : Triple) :
    encodeTriple t.address.toInt t.replacement.toInt (t.compare.map BitVec.toInt) = (tripleLetters t).map letterOf := by
  cases t <;> rfl

@[simp] theorem operandTriple_address (s : State) : (operandTriple s).address = s.address := by
  unfold operandTriple
  cases s.hasCmp <;> rfl

@[simp] theorem operandTriple_replacement (s : State) : (operandTriple s).replacement = s.replacement := by
  unfold operandTriple
  cases s.hasCmp <;> rfl

@[simp] theorem operandTriple_compare (s : State) : (operandTriple s).compare.map BitVec.toInt = compareOperand s := by
  unfold operandTriple compareOperand
  cases s.hasCmp <;> rfl

theorem validTriple_operands_iff (s : State) :
    validTriple s.address.toInt s.replacement.toInt (compareOperand s) = true ↔ (operandTriple s).Valid := by
  simpa using validTriple_iff_valid (operandTriple s)

theorem encodeTriple_operands (s : State) :
    encodeTriple s.address.toInt s.replacement.toInt (compareOperand s) = (tripleLetters (operandTriple s)).map letterOf := by
  simpa using encodeTriple_eq (operandTriple s)

theorem execGgEnc_of_valid_triple {s : State} (h : (operandTriple s).Valid) :
    execGgEnc s = complete (.ggEnc ((tripleLetters (operandTriple s)).map letterOf)) s := by
  rw [execGgEnc_of_valid ((validTriple_operands_iff s).2 h), encodeTriple_operands]

theorem execGgEnc_of_not_valid_triple {s : State} (h : ¬ (operandTriple s).Valid) : execGgEnc s = raise .invalidArgument s := by
  rw [execGgEnc_of_invalid (Bool.eq_false_iff.2 ((validTriple_operands_iff s).not.2 h))]

/-- A GG.ENC that answers with a code was given a valid triple, and the code is that triple's. -/
theorem execGgEnc_code {s t : State} {out : List Byte} (he : execGgEnc s = .next t) (ha : t.answer = some (.ok (.ggEnc out))) :
    (operandTriple s).Valid ∧ out = (tripleLetters (operandTriple s)).map letterOf := by
  by_cases h : (operandTriple s).Valid
  · rw [execGgEnc_of_valid_triple h] at he
    rw [complete_next he] at ha
    cases ha
    exact ⟨h, rfl⟩
  · rw [execGgEnc_of_not_valid_triple h] at he
    rw [raise_next he] at ha
    cases ha

theorem operandTriple_of_false {s : State} (h : s.hasCmp = false) : operandTriple s = .sixLetter s.address s.replacement := by
  simp [operandTriple, h]

theorem operandTriple_of_true {s : State} (h : s.hasCmp = true) :
    operandTriple s = .eightLetter s.address s.replacement s.compareInt := by
  simp [operandTriple, h]

theorem sixLetter_valid_iff {a r : IntPort} :
    (Triple.sixLetter a r).Valid ↔ (0 ≤ a.toInt ∧ a.toInt ≤ 0xFFFF) ∧ portInByte r := by
  simp [Triple.Valid, Triple.address, Triple.replacement, Triple.compare]

theorem eightLetter_valid_iff {a r c : IntPort} :
    (Triple.eightLetter a r c).Valid ↔ (0 ≤ a.toInt ∧ a.toInt ≤ 0xFFFF) ∧ portInByte r ∧ portInByte c := by
  simp [Triple.Valid, Triple.address, Triple.replacement, Triple.compare]

theorem operandTriple_valid_iff {s : State} :
    (operandTriple s).Valid ↔
      (0 ≤ s.address.toInt ∧ s.address.toInt ≤ 0xFFFF) ∧ portInByte s.replacement ∧ (s.hasCmp = true → portInByte s.compareInt) := by
  cases h : s.hasCmp with
  | false => simp [operandTriple_of_false h, sixLetter_valid_iff]
  | true => simp [operandTriple_of_true h, eightLetter_valid_iff]

/-- Settles O40: each of the causes denies one of R91's tests. -/
theorem ggEncRejects : Obligations.GgEncRejects := by
  intro s hbad
  refine execGgEnc_of_not_valid_triple fun hvalid => ?_
  obtain ⟨haddr, hrepl, hcmp⟩ := operandTriple_valid_iff.1 hvalid
  rcases hbad with h | h | ⟨hhas, h⟩
  · exact h haddr
  · exact h hrepl
  · exact h (hcmp hhas)

/-! ### The letters of an encoded triple (R92 to R94) -/

theorem ofInt_eq_of_toNat {w : Nat} {v : Int} {a : BitVec w} (h : v = a.toNat) : BitVec.ofInt w v = a := by
  rw [h, BitVec.ofInt_natCast, BitVec.ofNat_toNat, BitVec.setWidth_eq]

/-- A port that holds a byte's number is in the byte range. -/
theorem portInByte_of_toNat {p : IntPort} {r : Byte} (h : p.toInt = r.toNat) : portInByte p := by
  have := r.isLt
  unfold portInByte
  omega

/-- Settles O41: the letters are those of `distribute_packSix`. -/
theorem ggEncSixLetters : Obligations.GgEncSixLetters := by
  intro s a r ha hr hhas
  have hvalid : (operandTriple s).Valid := by
    rw [operandTriple_of_false hhas, sixLetter_valid_iff]
    exact ⟨by have := a.isLt; omega, portInByte_of_toNat hr⟩
  have he := execGgEnc_of_valid_triple hvalid
  rw [operandTriple_of_false hhas, tripleLetters, ofInt_eq_of_toNat ha, ofInt_eq_of_toNat hr, distribute_packSix] at he
  exact ⟨_, _, _, _, _, _, he, isUpperLetter_letterOf _, isUpperLetter_letterOf _, isUpperLetter_letterOf _, isUpperLetter_letterOf _,
    isUpperLetter_letterOf _, isUpperLetter_letterOf _⟩

/-- Settles O42: the letters are those of `distribute_packEight`. -/
theorem ggEncEightLetters : Obligations.GgEncEightLetters := by
  intro s a r d ha hr hhas hd
  have hvalid : (operandTriple s).Valid := by
    rw [operandTriple_of_true hhas, eightLetter_valid_iff]
    exact ⟨by have := a.isLt; omega, portInByte_of_toNat hr, portInByte_of_toNat hd⟩
  have he := execGgEnc_of_valid_triple hvalid
  rw [operandTriple_of_true hhas, tripleLetters, ofInt_eq_of_toNat ha, ofInt_eq_of_toNat hr, ofInt_eq_of_toNat hd, distribute_packEight] at he
  exact ⟨_, _, _, _, _, _, _, _, he, isUpperLetter_letterOf _, isUpperLetter_letterOf _, isUpperLetter_letterOf _, isUpperLetter_letterOf _,
    isUpperLetter_letterOf _, isUpperLetter_letterOf _, isUpperLetter_letterOf _, isUpperLetter_letterOf _⟩

/-- Settles O43: address bits 6 to 4 spell the third letter, below a 0 in six letters and a 1 in eight. -/
theorem ggEncThirdLetterShowsLength : Obligations.GgEncThirdLetterShowsLength := by
  intro s t out he ha
  obtain ⟨-, rfl⟩ := execGgEnc_code he ha
  have hbits : (BitVec.ofInt 16 s.address.toInt).toNat / 0x10 % 8 < 8 := Nat.mod_lt _ (by decide)
  refine ⟨fun hhas => ?_, fun hhas => ?_⟩
  · rw [operandTriple_of_false hhas, tripleLetters, distribute_packSix]
    exact ⟨rfl, _, letterOf_low hbits, rfl⟩
  · rw [operandTriple_of_true hhas, tripleLetters, distribute_packEight]
    exact ⟨rfl, _, letterOf_high hbits, rfl⟩

/-! ### Decoding an encoded triple (R95 b, d) -/

theorem joinNibbles_toNat (hi lo : Nibble) : (joinNibbles hi lo).toNat = hi.toNat / 8 * 8 + lo.toNat % 8 := by
  have := hi.isLt
  rw [joinNibbles, BitVec.toNat_ofNat]
  omega

theorem joinNibbles_high (hi lo : Nibble) : (joinNibbles hi lo).toNat / 8 = hi.toNat / 8 := by
  rw [joinNibbles_toNat]
  omega

theorem joinNibbles_low (hi lo : Nibble) : (joinNibbles hi lo).toNat % 8 = lo.toNat % 8 := by
  rw [joinNibbles_toNat]
  omega

/-- The loop of R88 puts the six nibbles together again that the loop of R93 took apart. -/
theorem accumulate_distribute_six {acc : BitVec 32} (h : acc.toNat < 2 ^ 24) : accumulate (distribute acc 6) 6 = acc := by
  apply BitVec.eq_of_toNat_eq
  rw [accumulate_toNat, distribute_six]
  simp only [key, List.take, List.foldl, letterAt, List.getD_cons_succ, List.getD_cons_zero, Nat.reduceAdd, Nat.reduceSub, Nat.reduceMod,
    joinNibbles_high, joinNibbles_low, accNibble_toNat, Nat.reducePow]
  omega

/-- The same for eight letters, which hold all of the accumulator. -/
theorem accumulate_distribute_eight (acc : BitVec 32) : accumulate (distribute acc 8) 8 = acc := by
  have h := acc.isLt
  apply BitVec.eq_of_toNat_eq
  rw [accumulate_toNat, distribute_eight]
  simp only [key, List.take, List.foldl, letterAt, List.getD_cons_succ, List.getD_cons_zero, Nat.reduceAdd, Nat.reduceSub, Nat.reduceMod,
    joinNibbles_high, joinNibbles_low, accNibble_toNat, Nat.reducePow]
  omega

theorem or_top_setWidth (a : BitVec 16) : (a ||| 0x8000).setWidth 32 = a.setWidth 32 ||| 0x8000 := BitVec.setWidth_or

/-- `split` undoes `pack` but for the address's top bit (R89, R92). -/
theorem splitSix_packSix (a : BitVec 16) (r : Byte) :
    splitSix (packSix a r) = .sixLetter (a.setWidth 32 ||| 0x8000) (r.setWidth 32) := by
  have hr := r.isLt
  rw [splitSix_eq, packSix_toNat, ← or_top_setWidth, ← BitVec.ofNat_toNat, ← BitVec.ofNat_toNat, or_top_toNat]
  congr 2 <;> omega

theorem splitEight_packEight (a : BitVec 16) (r c : Byte) :
    splitEight (packEight a r c) = .eightLetter (a.setWidth 32 ||| 0x8000) (r.setWidth 32) (c.setWidth 32) := by
  have hr := r.isLt
  have hc := c.isLt
  rw [splitEight_eq, packEight_toNat, ← or_top_setWidth, ← BitVec.ofNat_toNat, ← BitVec.ofNat_toNat, ← BitVec.ofNat_toNat, or_top_toNat]
  congr 2 <;> omega

/-- A port whose integer is a number of `w` bits keeps its value when cut to them. -/
theorem setWidth_ofInt_toInt {w : Nat} {p : IntPort} (h0 : 0 ≤ p.toInt) (hw : p.toInt < 2 ^ w) :
    (BitVec.ofInt w p.toInt).setWidth 32 = p := by
  have hp := BitVec.toInt_eq_toNat_of_lt (x := p) (BitVec.toInt_pos_iff.1 h0)
  rw [hp] at hw ⊢
  have hw' : p.toNat < 2 ^ w := by exact_mod_cast hw
  apply BitVec.eq_of_toNat_eq
  rw [BitVec.ofInt_natCast, BitVec.toNat_setWidth, BitVec.toNat_ofNat, Nat.mod_eq_of_lt hw', Nat.mod_eq_of_lt p.isLt]

/-- The triple with its address in the CPU window (R89). -/
def Triple.withTop : Triple → Triple
  | .sixLetter a r     => .sixLetter (a ||| 0x8000) r
  | .eightLetter a r c => .eightLetter (a ||| 0x8000) r c

/-- GG.DEC's letters of GG.ENC's triple: the triple, with the address's top bit set (R95 d). -/
theorem decodeLetters_tripleLetters {t : Triple} (h : t.Valid) : decodeLetters (tripleLetters t) t.len = t.withTop := by
  cases t with
  | sixLetter a r =>
    obtain ⟨⟨ha0, ha⟩, hr0, hr⟩ := sixLetter_valid_iff.1 h
    have hacc : (packSix (BitVec.ofInt 16 a.toInt) (BitVec.ofInt 8 r.toInt)).toNat < 2 ^ 24 := by
      have := (BitVec.ofInt 8 r.toInt).isLt
      rw [packSix_toNat]
      omega
    rw [tripleLetters, Triple.len, decodeLetters, if_pos rfl, accumulate_distribute_six hacc, splitSix_packSix,
      setWidth_ofInt_toInt ha0 (by omega), setWidth_ofInt_toInt hr0 (by omega), Triple.withTop]
  | eightLetter a r c =>
    obtain ⟨⟨ha0, ha⟩, ⟨hr0, hr⟩, hc0, hc⟩ := eightLetter_valid_iff.1 h
    rw [tripleLetters, Triple.len, decodeLetters, if_neg (by decide), accumulate_distribute_eight, splitEight_packEight,
      setWidth_ofInt_toInt ha0 (by omega), setWidth_ofInt_toInt hr0 (by omega), setWidth_ofInt_toInt hc0 (by omega), Triple.withTop]

theorem decodeCode_of_read {l : Nat} {code : Vector Byte 8} {n : List Nibble} (hl : l = 6 ∨ l = 8) (h : readLetters code l = some n) :
    decodeCode l code = .ok (decodeLetters n l) := by
  rcases hl with rfl | rfl
  · exact decodeCode_six rfl h
  · exact decodeCode_eight rfl h

theorem Triple.len_eq (t : Triple) : t.len = 6 ∨ t.len = 8 := by
  cases t with
  | sixLetter => exact .inl rfl
  | eightLetter => exact .inr rfl

/-- Upper-case letters are read as the values they were written for. -/
theorem readLetters_of_letterOf {code : Vector Byte 8} {n : List Nibble} (hlen : n.length ≤ 8)
    (h : ∀ i : Fin 8, i.val < n.length → (n.map letterOf)[i.val]? = some code[i]) : readLetters code n.length = some n := by
  refine readLetters_of_forall hlen fun i hi => ?_
  have hc := h i hi
  rw [List.getElem?_map, List.getElem?_eq_getElem hi, Option.map_some, Option.some.injEq] at hc
  rw [← hc, letterValue_letterOf, List.getElem?_eq_getElem hi]

/-- A code that starts with a valid triple's letters decodes to the triple. -/
theorem decodeCode_of_tripleLetters {t : Triple} {code : Vector Byte 8} (ht : t.Valid)
    (h : ∀ i : Fin 8, i.val < ((tripleLetters t).map letterOf).length → ((tripleLetters t).map letterOf)[i.val]? = some code[i]) :
    decodeCode t.len code = .ok t.withTop := by
  rw [List.length_map] at h
  have hlen := length_tripleLetters t
  have hread := readLetters_of_letterOf (by have := t.len_eq; omega) h
  rw [hlen] at hread
  rw [decodeCode_of_read t.len_eq hread, decodeLetters_tripleLetters ht]

/-- Settles O44: the letters are those of the operands' triple (`execGgEnc_code`), which they decode to. -/
theorem ggDecodeInvertsEncode : Obligations.GgDecodeInvertsEncode := by
  intro s t u out he ha hlen hcode
  obtain ⟨hvalid, rfl⟩ := execGgEnc_code he ha
  rw [List.length_map, length_tripleLetters] at hlen
  have hdec := decodeCode_of_tripleLetters hvalid hcode
  rw [← hlen] at hdec
  rw [exec, execGgDec_of_ok hdec, complete_eq, operandTriple, apply_ite Triple.withTop]
  rfl

/-! ### The canonical form of a code (R62, R95 c) -/

theorem len_decodeLetters {l : Nat} (n : List Nibble) (hl : l = 6 ∨ l = 8) : (decodeLetters n l).len = l := by
  rcases hl with rfl | rfl <;> rfl

theorem decodeLetters_valid (n : List Nibble) (l : Nat) : (decodeLetters n l).Valid := by
  obtain ⟨⟨hlo, hhi⟩, hbytes⟩ := ggDec_inRange n l
  exact ⟨⟨by omega, hhi⟩, hbytes⟩

/-- A decoded address has its top bit set already (R89). -/
theorem withTop_decodeLetters (n : List Nibble) (l : Nat) : (decodeLetters n l).withTop = decodeLetters n l := by
  unfold decodeLetters
  split
  · simp only [splitSix, Triple.withTop, or_top_setWidth, BitVec.or_assoc, BitVec.or_self]
  · simp only [splitEight, Triple.withTop, or_top_setWidth, BitVec.or_assoc, BitVec.or_self]

/-- What GG.DEC answers is a triple of that length that GG.ENC takes, with its address in the window (R90). -/
theorem decodeCode_ok {len : Int} {code : Vector Byte 8} {t : Triple} (h : decodeCode len code = .ok t) :
    len = t.len ∧ t.Valid ∧ t.withTop = t := by
  rcases decodeCode_cases len code with ⟨-, -, e⟩ | ⟨l, hl, ⟨-, e⟩ | ⟨n, -, e⟩⟩ <;> rw [e] at h
  · cases h
  · cases h
  · cases h
    rw [len_decodeLetters n (by omega)]
    exact ⟨by omega, decodeLetters_valid n l, withTop_decodeLetters n l⟩

/-- The canonical form is the code of the decoded triple (R62). -/
theorem canonicalCode_of_ok {len : Int} {code : Vector Byte 8} {t : Triple} (h : decodeCode len code = .ok t) :
    canonicalCode len code = .ok ((tripleLetters t).map letterOf) := by
  obtain ⟨-, hvalid, -⟩ := decodeCode_ok h
  simp only [canonicalCode, h]
  rw [encodeCode, if_pos ((validTriple_iff_valid t).2 hvalid), encodeTriple_eq]

/-- Settles O46: the canonical form is the decoded triple's code, which decodes to that triple (`decodeCode_of_tripleLetters`) and so
has the same canonical form. -/
theorem ggCanonicalFormIsIdempotent : Obligations.GgCanonicalFormIsIdempotent := by
  intro len code t h
  obtain ⟨hlen, hvalid, htop⟩ := decodeCode_ok h
  refine ⟨_, canonicalCode_of_ok h, ?_, fun again hagain => ?_⟩
  · rw [List.length_map, length_tripleLetters, hlen]
  · have hdec := decodeCode_of_tripleLetters hvalid hagain
    rw [← hlen, htop] at hdec
    exact ⟨hdec, canonicalCode_of_ok hdec⟩

/-! ### The don't-care bit (R95 a) -/

/-- The address that five letters carry, nibble by nibble (R55, R56). -/
def addressOfLetters (n1 n2 n3 n4 n5 : Nibble) : Nat :=
  0x8000 + n3.toNat % 8 * 0x1000 + (joinNibbles n4 n5).toNat * 0x100 + (joinNibbles n1 n2).toNat * 0x10 + (joinNibbles n3 n4).toNat

/-- The byte that three letters carry: all of one, the low bits of the next, bit 3 of the last (R55, R56). -/
def byteOfLetters (whole low high : Nibble) : Nat := (joinNibbles whole low).toNat * 0x10 + (joinNibbles high whole).toNat

theorem addressOfLetters_eq (n1 n2 n3 n4 n5 : Nibble) :
    addressOfLetters n1 n2 n3 n4 n5 =
      0x8000 + n3.toNat % 8 * 0x1000 + n4.toNat / 8 * 0x800 + n5.toNat % 8 * 0x100 + n1.toNat / 8 * 0x80 + n2.toNat % 8 * 0x10 +
        n3.toNat / 8 * 8 + n4.toNat % 8 := by
  simp only [addressOfLetters, joinNibbles_toNat]
  ring

theorem byteOfLetters_eq (whole low high : Nibble) :
    byteOfLetters whole low high = whole.toNat / 8 * 0x80 + low.toNat % 8 * 0x10 + high.toNat / 8 * 8 + whole.toNat % 8 := by
  simp only [byteOfLetters, joinNibbles_toNat]
  ring

theorem decodeLetters_six_fields (n0 n1 n2 n3 n4 n5 : Nibble) :
    decodeLetters [n0, n1, n2, n3, n4, n5] 6 =
      .sixLetter (BitVec.ofNat 32 (addressOfLetters n1 n2 n3 n4 n5)) (BitVec.ofNat 32 (byteOfLetters n0 n1 n5)) := by
  rw [decodeLetters_six, addressOfLetters_eq, byteOfLetters_eq]

theorem decodeLetters_eight_fields (n0 n1 n2 n3 n4 n5 n6 n7 : Nibble) :
    decodeLetters [n0, n1, n2, n3, n4, n5, n6, n7] 8 =
      .eightLetter (BitVec.ofNat 32 (addressOfLetters n1 n2 n3 n4 n5)) (BitVec.ofNat 32 (byteOfLetters n0 n1 n7))
        (BitVec.ofNat 32 (byteOfLetters n6 n7 n5)) := by
  rw [decodeLetters_eight, addressOfLetters_eq, byteOfLetters_eq, byteOfLetters_eq]

/-- A nibble is its bit 3 and its low bits. -/
theorem nibble_ext {v w : Nibble} (hhigh : v.toNat / 8 = w.toNat / 8) (hlow : v.toNat % 8 = w.toNat % 8) : v = w := by
  apply BitVec.eq_of_toNat_eq
  omega

theorem joinNibbles_inj {hi lo hi' lo' : Nibble} (h : (joinNibbles hi lo).toNat = (joinNibbles hi' lo').toNat) :
    hi.toNat / 8 = hi'.toNat / 8 ∧ lo.toNat % 8 = lo'.toNat % 8 := by
  rw [← joinNibbles_high hi lo, ← joinNibbles_low hi lo, h, joinNibbles_high, joinNibbles_low]
  exact ⟨rfl, rfl⟩

theorem ofNat_port_inj {x y : Nat} (h : BitVec.ofNat 32 x = BitVec.ofNat 32 y) (hx : x < 2 ^ 32) (hy : y < 2 ^ 32) : x = y := by
  rw [← BitVec.toNat_inj, BitVec.toNat_ofNat, BitVec.toNat_ofNat, Nat.mod_eq_of_lt hx, Nat.mod_eq_of_lt hy] at h
  exact h

/-- The byte's port shows both nibbles, so every bit they were made of. -/
theorem byteOfLetters_inj {whole low high whole' low' high' : Nibble}
    (h : BitVec.ofNat 32 (byteOfLetters whole low high) = BitVec.ofNat 32 (byteOfLetters whole' low' high')) :
    whole = whole' ∧ low.toNat % 8 = low'.toNat % 8 ∧ high.toNat / 8 = high'.toNat / 8 := by
  have hw := (joinNibbles whole low).isLt
  have hw' := (joinNibbles whole' low').isLt
  have hh := (joinNibbles high whole).isLt
  have hh' := (joinNibbles high' whole').isLt
  unfold byteOfLetters at h
  have e := ofNat_port_inj h (by omega) (by omega)
  obtain ⟨hwhole, hlow⟩ := joinNibbles_inj (hi := whole) (lo := low) (hi' := whole') (lo' := low') (by omega)
  obtain ⟨hhigh, hwhole'⟩ := joinNibbles_inj (hi := high) (lo := whole) (hi' := high') (lo' := whole') (by omega)
  exact ⟨nibble_ext hwhole hwhole', hlow, hhigh⟩

/-- The address's port shows its four nibbles, so every bit they were made of. -/
theorem addressOfLetters_inj {n1 n2 n3 n4 n5 m1 m2 m3 m4 m5 : Nibble}
    (h : BitVec.ofNat 32 (addressOfLetters n1 n2 n3 n4 n5) = BitVec.ofNat 32 (addressOfLetters m1 m2 m3 m4 m5)) :
    n1.toNat / 8 = m1.toNat / 8 ∧ n2.toNat % 8 = m2.toNat % 8 ∧ n3 = m3 ∧ n4 = m4 ∧ n5.toNat % 8 = m5.toNat % 8 := by
  have h45 := (joinNibbles n4 n5).isLt
  have h45' := (joinNibbles m4 m5).isLt
  have h12 := (joinNibbles n1 n2).isLt
  have h12' := (joinNibbles m1 m2).isLt
  have h34 := (joinNibbles n3 n4).isLt
  have h34' := (joinNibbles m3 m4).isLt
  unfold addressOfLetters at h
  have e := ofNat_port_inj h (by omega) (by omega)
  obtain ⟨h4, h5⟩ := joinNibbles_inj (hi := n4) (lo := n5) (hi' := m4) (lo' := m5) (by omega)
  obtain ⟨h1, h2⟩ := joinNibbles_inj (hi := n1) (lo := n2) (hi' := m1) (lo' := m2) (by omega)
  obtain ⟨h3, h4'⟩ := joinNibbles_inj (hi := n3) (lo := n4) (hi' := m3) (lo' := m4) (by omega)
  exact ⟨h1, h2, nibble_ext h3 (by omega), nibble_ext h4 h4', h5⟩

theorem joinNibbles_congr_low {hi lo lo' : Nibble} (h : lo.toNat % 8 = lo'.toNat % 8) : joinNibbles hi lo = joinNibbles hi lo' := by
  rw [joinNibbles, joinNibbles, h]

/-- Of the third letter's value only the low bits count. -/
theorem addressOfLetters_congr {n1 n2 m2 n3 n4 n5 : Nibble} (h : n2.toNat % 8 = m2.toNat % 8) :
    addressOfLetters n1 n2 n3 n4 n5 = addressOfLetters n1 m2 n3 n4 n5 := by
  rw [addressOfLetters, addressOfLetters, joinNibbles_congr_low h]

/-- Six letters are known from their triple, but for bit 3 of the third (R95 a). -/
theorem decodeLetters_six_eq_iff {n0 n1 n2 n3 n4 n5 m0 m1 m2 m3 m4 m5 : Nibble} :
    decodeLetters [n0, n1, n2, n3, n4, n5] 6 = decodeLetters [m0, m1, m2, m3, m4, m5] 6 ↔
      n0 = m0 ∧ n1 = m1 ∧ n2.toNat % 8 = m2.toNat % 8 ∧ n3 = m3 ∧ n4 = m4 ∧ n5 = m5 := by
  rw [decodeLetters_six_fields, decodeLetters_six_fields]
  constructor
  · intro h
    injection h with haddr hrepl
    obtain ⟨h1, h2, h3, h4, h5⟩ := addressOfLetters_inj haddr
    obtain ⟨h0, h1', h5'⟩ := byteOfLetters_inj hrepl
    exact ⟨h0, nibble_ext h1 h1', h2, h3, h4, nibble_ext h5' h5⟩
  · rintro ⟨rfl, rfl, h2, rfl, rfl, rfl⟩
    rw [addressOfLetters_congr h2]

/-- The same for eight letters. -/
theorem decodeLetters_eight_eq_iff {n0 n1 n2 n3 n4 n5 n6 n7 m0 m1 m2 m3 m4 m5 m6 m7 : Nibble} :
    decodeLetters [n0, n1, n2, n3, n4, n5, n6, n7] 8 = decodeLetters [m0, m1, m2, m3, m4, m5, m6, m7] 8 ↔
      n0 = m0 ∧ n1 = m1 ∧ n2.toNat % 8 = m2.toNat % 8 ∧ n3 = m3 ∧ n4 = m4 ∧ n5 = m5 ∧ n6 = m6 ∧ n7 = m7 := by
  rw [decodeLetters_eight_fields, decodeLetters_eight_fields]
  constructor
  · intro h
    injection h with haddr hrepl hcmp
    obtain ⟨h1, h2, h3, h4, h5⟩ := addressOfLetters_inj haddr
    obtain ⟨h0, h1', h7⟩ := byteOfLetters_inj hrepl
    obtain ⟨h6, h7', h5'⟩ := byteOfLetters_inj hcmp
    exact ⟨h0, nibble_ext h1 h1', h2, h3, h4, nibble_ext h5' h5, h6, nibble_ext h7 h7'⟩
  · rintro ⟨rfl, rfl, h2, rfl, rfl, rfl, rfl, rfl⟩
    rw [addressOfLetters_congr h2]

theorem extractLsb'_three_eq_iff {v w : Nibble} : v.extractLsb' 0 3 = w.extractLsb' 0 3 ↔ v.toNat % 8 = w.toNat % 8 := by
  rw [← BitVec.toNat_inj]
  rfl

theorem decodeCode_six_of_spells {code : Vector Byte 8} {n : Fin 8 → Nibble}
    (h : ∀ i : Fin 8, (i.val : Int) < 6 → SpellsLetter code[i] (n i)) :
    decodeCode 6 code = .ok (decodeLetters [n 0, n 1, n 2, n 3, n 4, n 5] 6) :=
  decodeCode_six rfl (readLetters_six (h 0 (by decide)) (h 1 (by decide)) (h 2 (by decide)) (h 3 (by decide)) (h 4 (by decide))
    (h 5 (by decide)))

theorem decodeCode_eight_of_spells {code : Vector Byte 8} {n : Fin 8 → Nibble}
    (h : ∀ i : Fin 8, (i.val : Int) < 8 → SpellsLetter code[i] (n i)) :
    decodeCode 8 code = .ok (decodeLetters [n 0, n 1, n 2, n 3, n 4, n 5, n 6, n 7] 8) :=
  decodeCode_eight rfl (readLetters_eight (h 0 (by decide)) (h 1 (by decide)) (h 2 (by decide)) (h 3 (by decide)) (h 4 (by decide))
    (h 5 (by decide)) (h 6 (by decide)) (h 7 (by decide)))

/-- Settles O45: both codes are read as their letters, whose triples agree exactly when those do but for bit 3 of the third. -/
theorem ggOneDontCareBit : Obligations.GgOneDontCareBit := by
  rintro _ code other m n (rfl | rfl) hspell
  · rw [decodeCode_six_of_spells fun i hi => (hspell i hi).1, decodeCode_six_of_spells fun i hi => (hspell i hi).2, Except.ok.injEq,
      decodeLetters_six_eq_iff, ← extractLsb'_three_eq_iff]
    simp [Fin.forall_fin_succ]
  · rw [decodeCode_eight_of_spells fun i hi => (hspell i hi).1, decodeCode_eight_of_spells fun i hi => (hspell i hi).2, Except.ok.injEq,
      decodeLetters_eight_eq_iff, ← extractLsb'_three_eq_iff]
    simp [Fin.forall_fin_succ]

end Sys2Proof.Machine
end

section
/-! PROOFS. The tile bitplane codec (43_tile_codec.md R97 to R100): what TILE.DEC and TILE.ENC answer, how each undoes the other, and what
follows for TILE.DEC as a map from byte pairs to pixel rows. -/

namespace Sys2Proof.Machine

open Sys2Proof

/-! ### What the two operations answer -/

theorem exec_tileDec (s : State) : exec .tileDec s = .next { s with answer := some (.ok (.tileDec (decodeSlice s.lo s.hi))) } := rfl

theorem exec_tileEnc (s : State) :
    exec .tileEnc s = .next { s with answer := some (.ok (.tileEnc (encodePlane 0 s.px) (encodePlane 1 s.px))) } := rfl

/-- The only row that TILE.DEC answers. -/
theorem exec_tileDec_row {s t : State} {px : Vector Pixel 8} (he : exec .tileDec s = .next t)
    (ha : t.answer = some (.ok (.tileDec px))) : px = decodeSlice s.lo s.hi := by
  rw [complete_next he] at ha
  cases ha
  rfl

/-- The only bytes that TILE.ENC answers. -/
theorem exec_tileEnc_planes {s t : State} {lo hi : Byte} (he : exec .tileEnc s = .next t)
    (ha : t.answer = some (.ok (.tileEnc lo hi))) : lo = encodePlane 0 s.px ∧ hi = encodePlane 1 s.px := by
  rw [complete_next he] at ha
  cases ha
  exact ⟨rfl, rfl⟩

/-- A pixel of a decoded slice in numbers (R97). -/
theorem decodeSlice_toNat (lo hi : Byte) (i : Fin 8) :
    (decodeSlice lo hi)[i].toNat = hi.toNat / 2 ^ (7 - i.val) % 2 * 2 + lo.toNat / 2 ^ (7 - i.val) % 2 := by
  rw [decodeSlice_get, slicePixel_toNat]

/-- The low plane holds the pixels' low bits (R99). -/
theorem encodePlane_zero_bit (px : Vector Pixel 8) (i : Fin 8) :
    (encodePlane 0 px).toNat / 2 ^ (7 - i.val) % 2 = px[i].toNat % 2 := by
  rw [encodePlane_bit, pixel_low]

/-- The high plane holds the pixels' high bits (R99). -/
theorem encodePlane_one_bit (px : Vector Pixel 8) (i : Fin 8) :
    (encodePlane 1 px).toNat / 2 ^ (7 - i.val) % 2 = px[i].toNat / 2 := by
  rw [encodePlane_bit, pixel_high]

/-- Settles O47: the answered row is the decoded slice, whose pixels are `decodeSlice_toNat`. -/
theorem tileDecAnswers : Obligations.TileDecAnswers := fun s =>
  ⟨_, exec_tileDec s, decodeSlice_toNat s.lo s.hi⟩

/-- Settles O48: the answered bytes are the two planes, whose bits are the pixels' low and high bits. -/
theorem tileEncAnswers : Obligations.TileEncAnswers := fun s =>
  ⟨_, _, exec_tileEnc s, fun i => ⟨encodePlane_zero_bit s.px i, encodePlane_one_bit s.px i⟩⟩

/-! ### Each operation undoes the other (R100) -/

/-- A byte is known from its bits in pixel order, bit 7 first. -/
theorem byte_ext_of_bits {a b : Byte} (h : ∀ i : Fin 8, a.toNat / 2 ^ (7 - i.val) % 2 = b.toNat / 2 ^ (7 - i.val) % 2) : a = b := by
  apply BitVec.eq_of_getLsbD_eq
  intro k hk
  have hbit := h ⟨7 - k, by omega⟩
  rw [Nat.sub_sub_self (by omega)] at hbit
  rw [bit_eq_div, bit_eq_div, hbit]

theorem encodePlane_zero_decodeSlice (lo hi : Byte) : encodePlane 0 (decodeSlice lo hi) = lo := by
  apply byte_ext_of_bits
  intro i
  rw [encodePlane_zero_bit, decodeSlice_toNat]
  omega

theorem encodePlane_one_decodeSlice (lo hi : Byte) : encodePlane 1 (decodeSlice lo hi) = hi := by
  apply byte_ext_of_bits
  intro i
  rw [encodePlane_one_bit, decodeSlice_toNat]
  omega

theorem decodeSlice_encodePlane (px : Vector Pixel 8) : decodeSlice (encodePlane 0 px) (encodePlane 1 px) = px := by
  apply Vector.ext
  intro i hi
  apply BitVec.eq_of_toNat_eq
  have hpixel := decodeSlice_toNat (encodePlane 0 px) (encodePlane 1 px) ⟨i, hi⟩
  rw [encodePlane_zero_bit, encodePlane_one_bit] at hpixel
  exact hpixel.trans (Nat.div_add_mod' _ 2)

/-- Settles O49: on the operands the first operation answered, the second answers the first one's operands. -/
theorem tileCodecInverse : Obligations.TileCodecInverse := by
  constructor
  · intro s t u px he ha hpx
    rw [exec_tileEnc, hpx, exec_tileDec_row he ha, encodePlane_zero_decodeSlice, encodePlane_one_decodeSlice]
  · intro s t u lo hi he ha hlo hhi
    obtain ⟨rfl, rfl⟩ := exec_tileEnc_planes he ha
    rw [exec_tileDec, hlo, hhi, decodeSlice_encodePlane]

/-! ### TILE.DEC as a map (R98) -/

/-- A decoded slice determines its two bytes: the planes of the row are read back. -/
theorem decodeSlice_inj {lo hi lo' hi' : Byte} (h : decodeSlice lo hi = decodeSlice lo' hi') : lo = lo' ∧ hi = hi' := by
  constructor
  · rw [← encodePlane_zero_decodeSlice lo hi, h, encodePlane_zero_decodeSlice]
  · rw [← encodePlane_one_decodeSlice lo hi, h, encodePlane_one_decodeSlice]

/-- Exchanging the planes exchanges the pixel values 1 and 2 (R98). -/
theorem slicePixel_swap (lo hi : Byte) (i : Nat) :
    slicePixel hi lo i = if slicePixel lo hi i = 1 then 2 else if slicePixel lo hi i = 2 then 1 else slicePixel lo hi i := by
  unfold slicePixel
  cases hi.getLsbD (7 - i) <;> cases lo.getLsbD (7 - i) <;> rfl

/-- Settles O50: one-to-one because encoding undoes decoding, onto because decoding undoes encoding; the swap and the zero high plane are
seen pixel by pixel. -/
theorem tileDecodeProperties : Obligations.TileDecodeProperties := by
  refine ⟨?_, ?_, ?_, ?_⟩
  · intro s t u v px hs hst hu huv
    exact decodeSlice_inj ((exec_tileDec_row hs hst).symm.trans (exec_tileDec_row hu huv))
  · intro px
    refine ⟨encodePlane 0 px, encodePlane 1 px, fun s hlo hhi => ?_⟩
    rw [exec_tileDec, hlo, hhi, decodeSlice_encodePlane]
  · intro s t u v px qx hs hst hlo hhi hu huv i
    rw [exec_tileDec_row hu huv, exec_tileDec_row hs hst, hlo, hhi, decodeSlice_get, decodeSlice_get]
    exact slicePixel_swap s.lo s.hi i
  · intro s t px hs hst hzero i
    rw [exec_tileDec_row hs hst, decodeSlice_toNat, hzero]
    simp

end Sys2Proof.Machine
end

section
/-! PROOFS. Errors and the warning (60_exceptions.md): which operation raises which kind and why (R101, R105), which operations raise nothing
(R102), where the flag `UNKNOWN` stands (R103), and that an operation leaves no trace (R110, R111). -/

namespace Sys2Proof.Machine

open Sys2Proof

/-! ### No trace (R110, R111) -/

/-- The answer standing on the ports changes nothing for the next operation, a refused one included (log 3). -/
theorem exec_setAnswer (i : Instr) (s : State) (a : Answer) : exec i (s.setAnswer a) = exec i s := by
  obtain ⟨b, hs, ht⟩ | ⟨r, hs, ht⟩ := exec_alike (sameRequest_setAnswer i s a)
  · rw [ht, hs, setAnswer_setAnswer]
  · rw [ht, hs]

/-- Settles O9: an operation leaves only its answer (`exec_next`), which no operation looks at. -/
theorem anOperationLeavesNoTrace : Obligations.AnOperationLeavesNoTrace := by
  refine ⟨fun i j s t h => ?_, fun i s t => exec_again⟩
  obtain ⟨a, rfl⟩ := exec_next h
  exact exec_setAnswer j s a

/-! ### Which operation raises what (R101, R105) -/

theorem raise_inj {e e' : ErrorKind} {s : State} (h : raise e s = raise e' s) : e = e' := by
  have ha := congrArg State.answer (raise_next h)
  cases ha
  rfl

theorem complete_ne_raise {r : Result} {e : ErrorKind} {s : State} : complete r s ≠ raise e s := fun h =>
  nomatch congrArg State.answer (complete_next h)

theorem refused_ne_raise {r : Refusal} {e : ErrorKind} {s : State} : .refused r ≠ raise e s := nofun

/-- The mapper test of R68 on its port. -/
theorem validMapper_port_iff {p : IntPort} : validMapper p.toInt = true ↔ portInByte p := by
  simp [validMapper, portInByte]

theorem not_cpuDomain_iff_window {s : State} :
    ¬ cpuDomain s ↔ s.bankSize.toInt ∉ [8192, 16384, 32768] ∨ ¬ portInWindow s.cpuAddr := not_and_or

theorem requiredLength_eq_declaredLength (b : Vector Byte 16) : (requiredLength (parseHeader b) : Int) = declaredLength b := by
  rw [requiredLength_parseHeader, declaredLength]
  push_cast
  rfl

/-- A code with a letter at each of its first `l` places is read as their values (R87 step S2). -/
theorem readLetters_of_spells {code : Vector Byte 8} {l : Nat} {v : Fin 8 → Nibble} (hl : l ≤ 8)
    (h : ∀ i : Fin 8, i.val < l → SpellsLetter code[i] (v i)) : readLetters code l = some ((List.ofFn v).take l) := by
  have hlen : ((List.ofFn v).take l).length = l := by rw [List.length_take, List.length_ofFn, min_eq_left hl]
  have hread := readLetters_of_forall (code := code) (hlen.trans_le hl) fun i hi => by
    have hi : i.val < l := hlen ▸ hi
    rw [letterValue_iff.2 (h i hi), List.getElem?_take_of_lt hi, List.getElem?_ofFn, dif_pos i.isLt]
  rwa [hlen] at hread

/-- A code that is not read has a character that spells no letter (R87 step S2). -/
theorem exists_not_spells_of_readLetters_none {code : Vector Byte 8} {l : Nat} (hl : l ≤ 8) (h : readLetters code l = none) :
    ∃ i : Fin 8, i.val < l ∧ ∀ v, ¬ SpellsLetter code[i] v := by
  by_contra hall
  push Not at hall
  choose! v hv using hall
  rw [readLetters_of_spells hl hv] at h
  cases h

/-- The operands that GG.ENC rejects (R91). -/
theorem operandTriple_not_valid_iff {s : State} :
    ¬ (operandTriple s).Valid ↔ ¬ (0 ≤ s.address.toInt ∧ s.address.toInt ≤ 0xFFFF) ∨ ¬ portInByte s.replacement ∨
      (s.hasCmp = true ∧ ¬ portInByte s.compareInt) := by
  rw [operandTriple_valid_iff, not_and_or, not_and_or (a := portInByte s.replacement), Classical.not_imp]

/-- Each cause of R101's table makes its operation raise its kind. -/
theorem exec_of_errorCause {e : ErrorKind} {i : Instr} {s : State} (h : ErrorCause e i s) : exec i s = raise e s := by
  cases e with
  | badMagic =>
    obtain ⟨rfl, havail, hmagic⟩ := h
    exact execHdrDec_of_badMagic havail hmagic
  | tooShort =>
    obtain ⟨rfl, havail⟩ := h
    exact execHdrDec_of_tooShort havail
  | truncated =>
    obtain ⟨rfl, havail, hmagic, hlen⟩ := h
    exact execHdrDec_of_truncated havail hmagic (hlen.trans_eq (requiredLength_eq_declaredLength s.hdrBuf).symm)
  | invalidPrgSize =>
    obtain ⟨rfl, hmirr, hprg⟩ := h
    exact execHdrEnc_of_invalidPrgSize hmirr (Bool.eq_false_iff.2 (validPrgSize_iff.not.2 hprg))
  | invalidChrSize =>
    obtain ⟨rfl, hmirr, hprg, hchr⟩ := h
    exact execHdrEnc_of_invalidChrSize hmirr (validPrgSize_iff.2 hprg) (Bool.eq_false_iff.2 (validChrSize_iff.not.2 hchr))
  | invalidMapper =>
    obtain ⟨rfl, hmirr, hprg, hchr, hmap⟩ := h
    exact execHdrEnc_of_invalidMapper hmirr (validPrgSize_iff.2 hprg) (validChrSize_iff.2 hchr)
      (Bool.eq_false_iff.2 (validMapper_port_iff.not.2 hmap))
  | invalidCode =>
    obtain ⟨rfl, hlen | ⟨k, hk, hletter⟩⟩ := h
    · exact execGgDec_of_error (decodeCode_of_badLength hlen)
    · exact execGgDec_of_error (decodeCode_of_badLetter hk hletter)
  | invalidArgument =>
    obtain ⟨rfl, hbad⟩ := h
    exact execGgEnc_of_not_valid_triple (operandTriple_not_valid_iff.2 hbad)
  | addressOutOfRange =>
    obtain ⟨rfl, hout⟩ | ⟨rfl | rfl, hout⟩ := h
    · exact execBankP2c_of_outside hout
    · exact execBankC2p_of_outside (not_cpuDomain_iff_window.2 hout)
    · exact execBankC2pf_of_outside (not_cpuDomain_iff_window.2 hout)

section Raised
variable {e : ErrorKind} {s : State}

theorem errorCause_of_execHdrDec (h : execHdrDec s = raise e s) : ErrorCause e .hdrDec s := by
  rcases execHdrDec_cases s with ⟨havail, he⟩ | ⟨havail, hmagic, he⟩ | ⟨havail, hmagic, hlen, he⟩ | ⟨_, _, _, he⟩ <;> rw [he] at h
  · obtain rfl := raise_inj h
    exact ⟨rfl, havail⟩
  · obtain rfl := raise_inj h
    exact ⟨rfl, havail, hasMagic_iff.not.1 (Bool.eq_false_iff.1 hmagic)⟩
  · obtain rfl := raise_inj h
    exact ⟨rfl, havail, hasMagic_iff.1 hmagic, hlen.trans_eq (requiredLength_eq_declaredLength s.hdrBuf)⟩
  · exact absurd h complete_ne_raise

theorem errorCause_of_execHdrEnc (h : execHdrEnc s = raise e s) : ErrorCause e .hdrEnc s := by
  have hmirr : s.mirr ≠ 3 := mirr_ne_three_of_next h
  rcases execHdrEnc_cases s with ⟨hm, _⟩ | ⟨_, _, ⟨hprg, he⟩ | ⟨hprg, hchr, he⟩ | ⟨hprg, hchr, hmap, he⟩ | ⟨_, _, _, he⟩⟩
  · exact absurd hm hmirr
  all_goals rw [he] at h
  · obtain rfl := raise_inj h
    exact ⟨rfl, hmirr, validPrgSize_iff.not.1 (Bool.eq_false_iff.1 hprg)⟩
  · obtain rfl := raise_inj h
    exact ⟨rfl, hmirr, validPrgSize_iff.1 hprg, validChrSize_iff.not.1 (Bool.eq_false_iff.1 hchr)⟩
  · obtain rfl := raise_inj h
    exact ⟨rfl, hmirr, validPrgSize_iff.1 hprg, validChrSize_iff.1 hchr, validMapper_port_iff.not.1 (Bool.eq_false_iff.1 hmap)⟩
  · exact absurd h complete_ne_raise

theorem errorCause_of_execBankP2c (h : execBankP2c s = raise e s) : ErrorCause e .bankP2c s := by
  rcases execBankP2c_cases s with ⟨hout, he⟩ | ⟨_, _, he⟩ <;> rw [he] at h
  · obtain rfl := raise_inj h
    exact .inl ⟨rfl, hout⟩
  · exact absurd h complete_ne_raise

theorem errorCause_of_execBankC2p (h : execBankC2p s = raise e s) : ErrorCause e .bankC2p s := by
  rcases execBankC2p_cases s with ⟨hout, he⟩ | ⟨_, he⟩ <;> rw [he] at h
  · obtain rfl := raise_inj h
    exact .inr ⟨.inl rfl, not_cpuDomain_iff_window.1 hout⟩
  · exact absurd h complete_ne_raise

theorem errorCause_of_execBankC2pf (h : execBankC2pf s = raise e s) : ErrorCause e .bankC2pf s := by
  rcases execBankC2pf_cases s with ⟨hout, he⟩ | ⟨_, _, he⟩ | ⟨_, _, he⟩ <;> rw [he] at h
  · obtain rfl := raise_inj h
    exact .inr ⟨.inr rfl, not_cpuDomain_iff_window.1 hout⟩
  · exact absurd h refused_ne_raise
  · exact absurd h complete_ne_raise

theorem errorCause_of_execGgDec (h : execGgDec s = raise e s) : ErrorCause e .ggDec s := by
  rcases decodeCode_cases s.len.toInt s.code with ⟨h6, h8, hd⟩ | ⟨l, hl, ⟨hn, hd⟩ | ⟨n, hn, hd⟩⟩
  · rw [execGgDec_of_error hd] at h
    obtain rfl := raise_inj h
    exact ⟨rfl, .inl ⟨h6, h8⟩⟩
  · rw [execGgDec_of_error hd] at h
    obtain rfl := raise_inj h
    obtain ⟨k, hk, hletter⟩ := exists_not_spells_of_readLetters_none (by omega) hn
    exact ⟨rfl, .inr ⟨k, by omega, hletter⟩⟩
  · rw [execGgDec_of_ok hd] at h
    exact absurd h complete_ne_raise

theorem errorCause_of_execGgEnc (h : execGgEnc s = raise e s) : ErrorCause e .ggEnc s := by
  by_cases hvalid : (operandTriple s).Valid
  · rw [execGgEnc_of_valid_triple hvalid] at h
    exact absurd h complete_ne_raise
  · rw [execGgEnc_of_not_valid_triple hvalid] at h
    obtain rfl := raise_inj h
    exact ⟨rfl, operandTriple_not_valid_iff.1 hvalid⟩

/-- An operation raises a kind for its cause of R101's table only, and the other five complete. -/
theorem errorCause_of_exec {i : Instr} (h : exec i s = raise e s) : ErrorCause e i s := by
  cases i with
  | hdrDec => exact errorCause_of_execHdrDec h
  | hdrEnc => exact errorCause_of_execHdrEnc h
  | bankP2c => exact errorCause_of_execBankP2c h
  | bankC2p => exact errorCause_of_execBankC2p h
  | bankC2pf => exact errorCause_of_execBankC2pf h
  | ggDec => exact errorCause_of_execGgDec h
  | ggEnc => exact errorCause_of_execGgEnc h
  | bankMin | bankMinc | bankIssw | tileDec | tileEnc => exact absurd h complete_ne_raise

end Raised

/-- Settles O6: a cause makes its operation raise (`exec_of_errorCause`) and nothing else does (`errorCause_of_exec`); the state is otherwise
the old one by `exec_next`. -/
theorem errorsHaveTheirExactCauses : Obligations.ErrorsHaveTheirExactCauses := by
  refine ⟨fun i s e => ⟨errorCause_of_exec, exec_of_errorCause⟩, fun i s t e h ha => ?_, rfl⟩
  obtain ⟨a, rfl⟩ := exec_next h
  cases ha
  rfl

/-! ### What raises nothing (R102) -/

/-- The table operations and the tile codec complete whatever the operands. -/
theorem exec_completes {i : Instr} (s : State) (hi : i ∈ [Instr.bankMin, .bankMinc, .bankIssw, .tileDec, .tileEnc]) :
    ∃ r, exec i s = complete r s := by
  simp only [List.mem_cons, List.not_mem_nil, or_false] at hi
  rcases hi with rfl | rfl | rfl | rfl | rfl
  all_goals exact ⟨_, rfl⟩

/-- Settles O7: the translator completes on its domain by the rules of its operations, and there is no fault to end in (log 17). -/
theorem operationsThatRaiseNothing : Obligations.OperationsThatRaiseNothing := by
  refine ⟨fun i s => exec_completes s, fun s hb => ⟨fun hp => ⟨_, execBankP2c_of_domain hb hp⟩, fun hwin => ?_⟩, fun _ _ f => nomatch f⟩
  have hd : cpuDomain s := ⟨hb, hwin⟩
  exact ⟨⟨_, execBankC2p_of_domain hd⟩, fun hz => ⟨_, execBankC2pf_of_domain hd hz⟩⟩

/-! ### The warning (R103) -/

/-- The port `UNKNOWN` of every answer the outcome can hold. -/
def FlagIs (f : Option Bool) (o : Host.Outcome State Fault Refusal) : Prop :=
  ∀ t a, o = .next t → t.answer = some a → a.unknown = f

theorem raise_flagIs (e : ErrorKind) (s : State) : FlagIs none (raise e s) := fun t a h ha => by
  rw [raise_next h] at ha
  cases ha
  rfl

theorem complete_flagIs (r : Result) (s : State) : FlagIs (Answer.ok r).unknown (complete r s) := fun t a h ha => by
  rw [complete_next h] at ha
  cases ha
  rfl

theorem refused_flagIs (f : Option Bool) (r : Refusal) : FlagIs f (.refused r) := fun _ _ h => nomatch h

/-- R103: the lookup's flag on the three table operations, no flag on the others. -/
def warningFlag (i : Instr) (s : State) : Option Bool :=
  if i = .bankMin ∨ i = .bankMinc ∨ i = .bankIssw then some (lookupMapper s.mapperTable s.mapper.toInt).2 else none

theorem exec_flagIs (i : Instr) (s : State) : FlagIs (warningFlag i s) (exec i s) := by
  cases i with
  | bankMin | bankMinc | bankIssw | tileDec | tileEnc => exact complete_flagIs _ s
  | hdrDec =>
    rcases execHdrDec_cases s with ⟨_, he⟩ | ⟨_, _, he⟩ | ⟨_, _, _, he⟩ | ⟨_, _, _, he⟩ <;> rw [exec, he]
    · exact raise_flagIs _ s
    · exact raise_flagIs _ s
    · exact raise_flagIs _ s
    · exact complete_flagIs _ s
  | hdrEnc =>
    rcases execHdrEnc_cases s with ⟨_, he⟩ | ⟨_, _, ⟨_, he⟩ | ⟨_, _, he⟩ | ⟨_, _, _, he⟩ | ⟨_, _, _, he⟩⟩ <;> rw [exec, he]
    · exact refused_flagIs _ _
    · exact raise_flagIs _ s
    · exact raise_flagIs _ s
    · exact raise_flagIs _ s
    · exact complete_flagIs _ s
  | bankP2c =>
    rcases execBankP2c_cases s with ⟨_, he⟩ | ⟨_, _, he⟩ <;> rw [exec, he]
    · exact raise_flagIs _ s
    · exact complete_flagIs _ s
  | bankC2p =>
    rcases execBankC2p_cases s with ⟨_, he⟩ | ⟨_, he⟩ <;> rw [exec, he]
    · exact raise_flagIs _ s
    · exact complete_flagIs _ s
  | bankC2pf =>
    rcases execBankC2pf_cases s with ⟨_, he⟩ | ⟨_, _, he⟩ | ⟨_, _, he⟩ <;> rw [exec, he]
    · exact raise_flagIs _ s
    · exact refused_flagIs _ _
    · exact complete_flagIs _ s
  | ggDec =>
    cases hd : decodeCode s.len.toInt s.code with
    | error e => rw [exec, execGgDec_of_error hd]; exact raise_flagIs _ s
    | ok t => rw [exec, execGgDec_of_ok hd]; exact complete_flagIs _ s
  | ggEnc =>
    by_cases hvalid : (operandTriple s).Valid
    · rw [exec, execGgEnc_of_valid_triple hvalid]; exact complete_flagIs _ s
    · rw [exec, execGgEnc_of_not_valid_triple hvalid]; exact raise_flagIs _ s

theorem warningFlag_eq_some_iff {i : Instr} {s : State} {f : Bool} :
    warningFlag i s = some f ↔
      (i = .bankMin ∨ i = .bankMinc ∨ i = .bankIssw) ∧ (lookupMapper s.mapperTable s.mapper.toInt).2 = f := by
  rw [warningFlag, Option.ite_none_right_eq_some, Option.some_inj]

theorem warningFlag_ne_none_iff {i : Instr} {s : State} :
    warningFlag i s ≠ none ↔ i = .bankMin ∨ i = .bankMinc ∨ i = .bankIssw := by
  simp only [Option.ne_none_iff_exists', warningFlag_eq_some_iff, exists_and_left, exists_eq', and_true]

/-- Where the flag exists the status is `OK` (R18). -/
theorem statusCode_of_unknown {a : Answer} {f : Bool} (h : a.unknown = some f) : a.statusCode = 0 := by
  cases a with
  | error e => cases h
  | ok r => rfl

/-- BANK.MIN's results are BANK.MIN's own, and beside the flag stands the fallback (R72). -/
theorem bankMin_of_flagged {i : Instr} {s t : State} {z : IntPort} (hi : i = .bankMin ∨ i = .bankMinc ∨ i = .bankIssw)
    (h : exec i s = .next t) (ha : t.answer = some (.ok (.bankMin z true))) (hflag : (lookupMapper s.mapperTable s.mapper.toInt).2 = true) :
    z = 8192 := by
  rcases hi with rfl | rfl | rfl
  · rw [exec, execBankMin_of_lookup (lookupMapper_absent (lookupMapper_unknown.1 hflag))] at h
    rw [complete_next h] at ha
    cases ha
    rfl
  all_goals
    rw [complete_next h] at ha
    cases ha

/-- Settles O27: the port is `warningFlag` (`exec_flagIs`), which says that the lookup found no key (`lookupMapper_unknown`). -/
theorem unknownFlagIsTheWarning : Obligations.UnknownFlagIsTheWarning := by
  intro i s t a h ha
  have hport : a.unknown = warningFlag i s := exec_flagIs i s t a h ha
  refine ⟨?_, fun f hf => ⟨statusCode_of_unknown hf, ?_⟩, ?_⟩
  · rw [hport]
    exact warningFlag_ne_none_iff
  · obtain ⟨-, hflag⟩ := warningFlag_eq_some_iff.1 (hport.symm.trans hf)
    rw [← hflag]
    exact lookupMapper_unknown
  · rintro z rfl
    obtain ⟨hi, hflag⟩ := warningFlag_eq_some_iff.1 hport.symm
    exact bankMin_of_flagged hi h ha hflag

end Sys2Proof.Machine
end

section
/-! PROOFS. Reset and hazards (70_reset_and_hazards.md): a host that meets its duties always gets an answer (R120). -/

namespace Sys2Proof.Machine

open Sys2Proof

/-- The host's duties (R120) shut out both causes for which a selected operation is refused (R71, R84). -/
theorem exec_ne_refused_of_duties {i : Instr} {s : State} (hop : s.op = opCode i) (hduties : HostDutiesMet s) (r : Refusal) :
    exec i s ≠ .refused r := by
  obtain ⟨-, hmirr, hbuffer⟩ := hduties
  intro h
  obtain ⟨rfl, hthree, -⟩ | ⟨rfl, -, hshort, -⟩ := refusalsAreTheTwoNamed i s r h
  · exact hmirr hop hthree
  · exact absurd hshort (not_lt.2 (hbuffer hop))

/-- Settles O13: the code selects an operation (R59), which answers or is refused (`exec_cases`), and the duties shut out the refusal. -/
theorem stepAnswersUnderHostDuties : Obligations.StepAnswersUnderHostDuties := by
  intro s hduties
  obtain ⟨i, hop⟩ := exists_opCode_of_lt hduties.1
  rw [StepAnswers, step_of_op hop]
  obtain ⟨a, h⟩ | ⟨r, h⟩ := exec_cases i s
  · exact ⟨_, h⟩
  · exact absurd h (exec_ne_refused_of_duties hop hduties r)

end Sys2Proof.Machine
end
